-- ==== Sys2Proof/Word.lean ====
section
/-! DEFINITION. The word types of the block (00_scope.md R12).

A width the spec fixes is a bit vector. The two widths it leaves OPEN (CNT_BITS and TICK_BITS, R9) are parameters, so
the counter and tick values are unsigned integers and their modular arithmetic names the width (Machine/Ops.lean). -/

namespace Sys2Proof

/-- One byte of the frame (30_encoding.md R79). -/
abbrev Byte := BitVec 8

/-- The 8-bit command word (30_encoding.md R70). -/
abbrev CommandWord := BitVec 8

/-- The 8-bit record count (10_state.md R24). -/
abbrev RecordCount := BitVec 8

/-- A 16-bit data field, H_RAW or T_RAW (30_encoding.md R80, R81). -/
abbrev DataField := BitVec 16

/-- The 16-bit STATUS view (10_state.md R34). -/
abbrev StatusWord := BitVec 16

/-- The 40-bit result word of READ (30_encoding.md R76). -/
abbrev ResultWord := BitVec 40

/-- An unsigned capture counter value or timestamp, CNT_BITS wide (00_scope.md R9). DESIGN CHOICE, log 2: an unsigned
integer, because the width is an OPEN parameter. -/
abbrev CounterValue := Nat

/-- An unsigned millisecond tick value, TICK_BITS wide (00_scope.md R9). DESIGN CHOICE, log 2. -/
abbrev TickValue := Nat

/-- A binary float, as the number its encoding is (41_frame_decoder.md R162). DESIGN CHOICE, log 12: the format is OPEN. -/
abbrev FloatCode := Nat

end Sys2Proof
end

