-- ==== Sys2Proof/Config.lean ====
section
/-! DEFINITION. The implementation parameters of the block (00_scope.md R9, R11) and its one free function,
FLOAT_RENDER. -/

namespace Sys2Proof

/-- The parameters of 00_scope.md R9. A default is the document's literal; CNT_BITS and TICK_BITS are OPEN and have
none. FLOAT_RENDER is a function, so it stands beside this record (`Config.floatRender`). -/
structure Config where
  /-- CAPACITY: Edge Record buffer capacity, in records. -/
  capacity : Nat := 90
  /-- MAX_PULSES: most high-pulse widths the reconstructor collects. -/
  maxPulses : Nat := 50
  /-- BIT_THRESHOLD: width above which a bit is 1, in counter units. -/
  bitThreshold : Nat := 50
  /-- SILENCE_LIMIT: gap after the last edge above which SERVICE ends the frame, in counter units. -/
  silenceLimit : Nat := 500
  /-- TIMEOUT_LIMIT: elapsed ticks since START above which SERVICE aborts. -/
  timeoutLimit : Nat := 50
  /-- WAKE_LOW_MS: length of the host wake pulse. -/
  wakeLowMs : Nat := 2
  /-- SETTLE_US: settle wait after line release. -/
  settleUs : Nat := 30
  /-- CNT_BITS: width of the capture counter and of every timestamp. OPEN. -/
  cntBits : Nat
  /-- TICK_BITS: width of the millisecond tick. OPEN. -/
  tickBits : Nat
  /-- COUNT_UNIT in microseconds; no rule reads it (log 16). -/
  countUnitUs : Nat := 1
  /-- TICK_UNIT in microseconds; no rule reads it (log 16). -/
  tickUnitUs : Nat := 1000
  deriving DecidableEq, Repr

/-- FRAME_PULSES, fixed by the frame format: 1 ack and 40 data pulses (00_scope.md R9). -/
def Config.framePulses : Nat := 41

/-- DATA_BITS, fixed (00_scope.md R9). -/
def Config.dataBits : Nat := 40

/-- The configuration of the test vectors (00_scope.md R11). -/
def Config.vector : Config := { cntBits := 16, tickBits := 32 }

/-- FLOAT_RENDER: the float of a number of tenths. OPEN: nothing is assumed of it but that it depends on its argument
alone (41_frame_decoder.md R162; log 12). -/
opaque Config.floatRender : Nat → FloatCode

/-- Multiplication by -1 in the OPEN float format (41_frame_decoder.md R162, "sign applied after scaling"; log 12). -/
opaque Config.floatNegate : FloatCode → FloatCode

end Sys2Proof
end

