-- ==== Sys2Proof/Syntax.lean ====
section
/-! DEFINITION. The operations of the block: ports, instructions and the requests that arrive on the ports
(30_encoding.md R70 to R73). -/

namespace Sys2Proof

/-- The two input ports (30_encoding.md R71). -/
inductive Port where
  /-- FG, the foreground port. -/
  | foreground
  /-- CAP, the capture port. -/
  | capture
  deriving DecidableEq, Repr

/-- One constructor per row of the opcode map (30_encoding.md R73). The only operand inside the word is EDGE's level L;
the others are sampled inputs (R72). -/
inductive Instr where
  | init
  | start
  | service
  | read
  | edge (level : Bool)
  deriving DecidableEq, Repr

/-- The port a row of the opcode map stands on (30_encoding.md R73). -/
def Instr.port : Instr → Port
  | .init => .foreground
  | .start => .foreground
  | .service => .foreground
  | .read => .foreground
  | .edge _ => .capture

/-- The mnemonic of a row of the opcode map (30_encoding.md R73). -/
def Instr.mnemonic : Instr → String
  | .init => "INIT"
  | .start => "START"
  | .service => "SERVICE"
  | .read => "READ"
  | .edge _ => "EDGE"

/-- An instruction issued on a port (30_encoding.md R71). -/
structure Command where
  port : Port
  instr : Instr
  deriving DecidableEq, Repr

/-- The sampled inputs of one operation (10_state.md R37, 30_encoding.md R72). An operation reads only those its row
names. -/
structure Inputs where
  /-- NOW_MS, TICK_BITS wide. -/
  nowMs : TickValue
  /-- NOW_CNT, CNT_BITS wide. -/
  nowCnt : CounterValue
  /-- TS, CNT_BITS wide. -/
  ts : CounterValue
  deriving DecidableEq, Repr

/-- One operation as it reaches the block: the port, the command word, whole (20_memory.md R53), and the values the
environment supplies when it executes. -/
structure Request where
  port : Port
  word : CommandWord
  inputs : Inputs
  deriving DecidableEq, Repr

end Sys2Proof
end

