-- ==== Sys2Proof/WellFormed.lean ====
section
/-! DEFINITION. What counts as well formed: a configuration (00_scope.md R10), an instruction on its port
(30_encoding.md R71), and sampled inputs of their widths (R72). -/

namespace Sys2Proof

/-- 1 <= CAPACITY <= 255 (00_scope.md R10). -/
def Config.capacityOk (c : Config) : Bool := decide (1 ≤ c.capacity) && decide (c.capacity ≤ 255)

/-- FRAME_PULSES <= MAX_PULSES (00_scope.md R10, which refuses a smaller value). -/
def Config.maxPulsesOk (c : Config) : Bool := decide (Config.framePulses ≤ c.maxPulses)

/-- 1 <= CNT_BITS, with 2^CNT_BITS above SILENCE_LIMIT and BIT_THRESHOLD (00_scope.md R10). -/
def Config.cntBitsOk (c : Config) : Bool :=
  decide (1 ≤ c.cntBits) && decide (c.silenceLimit < 2 ^ c.cntBits) && decide (c.bitThreshold < 2 ^ c.cntBits)

/-- 1 <= TICK_BITS, with 2^TICK_BITS above TIMEOUT_LIMIT (00_scope.md R10). -/
def Config.tickBitsOk (c : Config) : Bool := decide (1 ≤ c.tickBits) && decide (c.timeoutLimit < 2 ^ c.tickBits)

/-- WAKE_LOW_MS >= 1 (00_scope.md R10). -/
def Config.wakeLowOk (c : Config) : Bool := decide (1 ≤ c.wakeLowMs)

/-- The constraints of 00_scope.md R10 together. -/
def Config.wf (c : Config) : Bool :=
  c.capacityOk && c.maxPulsesOk && c.cntBitsOk && c.tickBitsOk && c.wakeLowOk

/-- An instruction by itself is always well formed: its one operand, L, is one bit (30_encoding.md R70). -/
def Instr.wf : Instr → Bool
  | .init => true
  | .start => true
  | .service => true
  | .read => true
  | .edge _ => true

/-- A command is well formed when its instruction stands on the port of its row (30_encoding.md R71, R73). -/
def Command.wf (k : Command) : Bool := k.instr.wf && decide (k.port = k.instr.port)

/-- Sampled inputs of the widths of 30_encoding.md R72. -/
def Inputs.wf (c : Config) (v : Inputs) : Bool :=
  decide (v.nowMs < 2 ^ c.tickBits) && decide (v.nowCnt < 2 ^ c.cntBits) && decide (v.ts < 2 ^ c.cntBits)

end Sys2Proof
end

