-- ==== Sys2Proof/Decode.lean ====
section
/-! DEFINITION. The command decoder, total on every port and word, and after it the encoder (30_encoding.md R70 to
R75). -/

namespace Sys2Proof

/-- Why a command word is illegal (30_encoding.md R74, one constructor per condition). -/
inductive Reject where
  /-- OP is 101, 110 or 111. -/
  | reservedOp
  /-- Z is not 0000. -/
  | reservedBits
  /-- L = 1 with OP other than 100. -/
  | levelWithoutEdge
  /-- OP = 100 on FG. -/
  | edgeOnForeground
  /-- OP other than 100 on CAP. -/
  | foregroundOpOnCapture
  deriving DecidableEq, Repr

/-- OP, bits [2:0] (30_encoding.md R70). -/
def opField (w : CommandWord) : BitVec 3 := w.extractLsb' 0 3

/-- L, bit [3] (30_encoding.md R70). -/
def levelField (w : CommandWord) : Bool := w.getLsbD 3

/-- Z, bits [7:4] (30_encoding.md R70). -/
def zField (w : CommandWord) : BitVec 4 := w.extractLsb' 4 4

/-- OP = 100, the capture port's operation (30_encoding.md R73). -/
def edgeOp : BitVec 3 := 4#3

/-- The instruction of an OP other than 100 (30_encoding.md R73). -/
def foregroundInstr (op : BitVec 3) : Option Instr :=
  if op = 0#3 then some .init
  else if op = 1#3 then some .start
  else if op = 2#3 then some .service
  else if op = 3#3 then some .read
  else none

/-- The command decoder (30_encoding.md R73, R74). -/
def decode (p : Port) (w : CommandWord) : Except Reject Instr :=
  if zField w ≠ 0#4 then .error .reservedBits
  else if opField w = edgeOp then
    match p with
    | .foreground => .error .edgeOnForeground
    | .capture => .ok (.edge (levelField w))
  else
    match foregroundInstr (opField w) with
    | none => .error .reservedOp
    | some i =>
      if levelField w then .error .levelWithoutEdge
      else
        match p with
        | .foreground => .ok i
        | .capture => .error .foregroundOpOnCapture

/-- The port whose rows hold a word's OP: CAP for 100, FG for every other (30_encoding.md R73; log 18). -/
def portOfWord (w : CommandWord) : Port := if opField w = edgeOp then .capture else .foreground

/-- The instruction the decoder reads from `nbits` bits `w`, numbered as spec/opcode_table.json numbers them. Every
command is 8 bits (30_encoding.md R75); the word is given to the decoder on the port of its row (log 18). -/
def decodeTableWord (nbits w : Nat) : Option Instr :=
  if nbits = 8 ∧ w < 256 then
    match decode (portOfWord (BitVec.ofNat 8 w)) (BitVec.ofNat 8 w) with
    | .ok i => some i
    | .error _ => none
  else none

/-- A command word from its fields (30_encoding.md R70). -/
def commandWord (z : BitVec 4) (level : Bool) (op : BitVec 3) : CommandWord := z ++ (BitVec.ofBool level ++ op)

/-- The OP of an instruction (30_encoding.md R73). -/
def Instr.op : Instr → BitVec 3
  | .init => 0#3
  | .start => 1#3
  | .service => 2#3
  | .read => 3#3
  | .edge _ => edgeOp

/-- The L bit of an instruction (30_encoding.md R73). -/
def Instr.levelBit : Instr → Bool
  | .init => false
  | .start => false
  | .service => false
  | .read => false
  | .edge l => l

/-- The encoder: the word of an instruction (30_encoding.md R73). It stands on the instruction's port. -/
def encode (i : Instr) : CommandWord := commandWord 0#4 i.levelBit i.op

end Sys2Proof
end

