-- ==== Sys2Proof/Machine/State.lean ====
section
/-! DEFINITION. The block's state, plain data, and its value after reset (10_state.md R20 to R32, R39). -/

namespace Sys2Proof.Machine

/-- The session state (10_state.md R21). A fourth value does not exist. -/
inductive SessionState where
  | idle
  | capturing
  | ready
  deriving DecidableEq, Repr

/-- The capture polarity last requested (10_state.md R29). -/
inductive CapPol where
  | unset
  | both
  deriving DecidableEq, Repr

/-- The line mode last requested (10_state.md R30). -/
inductive LineMode where
  | released
  | driveLow
  deriving DecidableEq, Repr

/-- An Edge Record: the captured counter value and the level after the edge, high or low (10_state.md R23,
30_encoding.md R78). -/
structure EdgeRecord where
  ts : CounterValue
  lvl : Bool
  deriving DecidableEq, Repr

/-- The Edge Record buffer: index and record, indexes strictly rising. An index that is not listed holds no value
(10_state.md R23, R36). The unit is one whole record (20_memory.md R52; log 22). -/
abbrev Memory := List (Nat × EdgeRecord)

/-- The spec's model faults, with the info each records (60_exceptions.md R203). -/
inductive ModelFault where
  /-- Raised by any step, before dispatch, on a word or port that breaks 30_encoding.md R74. -/
  | illegalCommand (port : Port) (word : CommandWord)
  /-- Raised by START while init_done = 0. -/
  | startBeforeInit
  deriving DecidableEq, Repr

/-- The output events to the collaborators (60_exceptions.md R214). -/
inductive Event where
  | delayInit
  | lineDriveLow
  | delayMs (n : Nat)
  | lineRelease
  | delayUs (n : Nat)
  | counterReset
  | captureSetPolarity (p : CapPol)
  | captureArm
  | captureDisarm
  deriving DecidableEq, Repr

/-- The result codes of READ (30_encoding.md R77). -/
inductive ResultCode where
  | ok
  | busy
  | timedOut
  | checksumMismatch
  | framingError
  deriving DecidableEq, Repr

/-- The fields of a result word (30_encoding.md R76). -/
structure Result where
  code : ResultCode
  tRaw : DataField
  hRaw : DataField
  deriving DecidableEq, Repr

/-- The five bytes of a frame in arrival order (30_encoding.md R79). -/
structure Frame where
  b0 : Byte
  b1 : Byte
  b2 : Byte
  b3 : Byte
  b4 : Byte
  deriving DecidableEq, Repr

/-- Why the machine stops. Every stop is safe: it claims no behaviour. -/
inductive Fault where
  /-- A step of a block that has faulted: no step (40_capture_session.md R100, 60_exceptions.md R203). Raised by `step`. -/
  | stopped (reason : ModelFault)
  /-- A BufRead of an entry that holds no value (20_memory.md R51). Raised by READ, only outside `Inv`. -/
  | bufReadOutside (index : Nat)
  /-- A BufWrite at an index other than count, or outside the index space (20_memory.md R51). Raised by the buffer write
  of EDGE, which never asks for such an index. -/
  | bufWriteOutside (index : Nat)
  deriving DecidableEq, Repr

/-- Why no meaning is given. Every refusal is safe: it claims no behaviour. -/
inductive Refusal where
  /-- An instruction that has no meaning yet. Raised by an arm of `exec`; no arm does. -/
  | notModelled (mnemonic : String)
  /-- A configuration that breaks 00_scope.md R10. Raised by `step`. -/
  | badConfiguration
  /-- No operation has arrived on either port: the block takes no step on its own (00_scope.md R18). Raised by `step`
  (log 4). -/
  | noOperation
  deriving DecidableEq, Repr

/-- The block's state: the tuple of 10_state.md R20, and below it the model's own fields. -/
structure State where
  /-- `state` (10_state.md R21). -/
  state : SessionState
  /-- `buf` (10_state.md R23). -/
  buf : Memory
  /-- `count` (10_state.md R24). -/
  count : RecordCount
  /-- `last_ts` (10_state.md R25). -/
  lastTs : CounterValue
  /-- `new_edge` (10_state.md R26). -/
  newEdge : Bool
  /-- `start_ms` (10_state.md R27). -/
  startMs : TickValue
  /-- `armed` (10_state.md R28). -/
  armed : Bool
  /-- `cap_pol` (10_state.md R29). -/
  capPol : CapPol
  /-- `line_mode` (10_state.md R30). -/
  lineMode : LineMode
  /-- `init_done` (10_state.md R31). -/
  initDone : Bool
  /-- `fault` (10_state.md R32). -/
  fault : Option ModelFault
  /-- Model's own: the configuration, never written by a step (00_scope.md R9; log 1). -/
  cfg : Config
  /-- Model's own: the operations still to be taken, in arbitration order (20_memory.md R56; log 3). -/
  arrivals : List Request
  /-- Model's own: the inputs sampled for the operation now executing (10_state.md R37; log 11). -/
  inputs : Inputs
  /-- Model's own: the ordered output events of the run so far (00_scope.md R19; log 5). -/
  events : List Event
  /-- Model's own: the ordered READ result words of the run so far (00_scope.md R19; log 5). -/
  results : List ResultWord
  deriving DecidableEq, Repr

/-- The state after reset of a block with configuration `c` (10_state.md R39, 70_reset_and_hazards.md R230). DESIGN CHOICE,
log 8: R39 leaves `last_ts` and `start_ms` unspecified, and they are 0 here; no operation reads either before it writes
it. -/
def State.resetWith (c : Config) : State where
  state := .idle
  buf := []
  count := 0#8
  lastTs := 0
  newEdge := false
  startMs := 0
  armed := false
  capPol := .unset
  lineMode := .released
  initDone := false
  fault := none
  cfg := c
  arrivals := []
  inputs := { nowMs := 0, nowCnt := 0, ts := 0 }
  events := []
  results := []

/-- The machine right after reset, under the configuration of the test vectors (00_scope.md R11). DESIGN CHOICE, log 1:
the spec leaves the configuration a parameter. -/
def State.reset : State := State.resetWith Config.vector

end Sys2Proof.Machine
end

