-- ==== Sys2Proof/Machine/Ops.lean ====
section
/-! DEFINITION. The named operations every meaning is built from: modular arithmetic, the buffer's access primitives,
output events, the result port, raising a model fault, interrupt entry and return, and the session's shared
transitions. -/

namespace Sys2Proof.Machine

/-- `a -_N b`, that is `(a - b) mod 2^N` (00_scope.md R12). -/
def subMod (n a b : Nat) : Nat := (((a : Int) - (b : Int)) % ((2 ^ n : Nat) : Int)).toNat

/-- `a +_N b`, addition modulo 2^N (00_scope.md R12). -/
def addMod (n a b : Nat) : Nat := (a + b) % 2 ^ n

/-- The canonical form of the buffer: indexes strictly rising. -/
def Memory.wf : Memory → Bool
  | [] => true
  | [_] => true
  | (i, _) :: (j, r) :: rest => decide (i < j) && Memory.wf ((j, r) :: rest)

/-- The record listed at an index, or none where the entry holds no value (10_state.md R23). -/
def Memory.lookup (i : Nat) : Memory → Option EdgeRecord
  | [] => none
  | (j, r) :: rest => if i = j then some r else Memory.lookup i rest

/-- The buffer with a record stored at an index, in canonical form again. -/
def Memory.store (i : Nat) (rec : EdgeRecord) : Memory → Memory
  | [] => [(i, rec)]
  | (j, r) :: rest =>
    if i < j then (i, rec) :: (j, r) :: rest
    else if i = j then (i, rec) :: rest
    else (j, r) :: Memory.store i rec rest

/-- `BufRead(i)`, defined only for i below count (20_memory.md R51). -/
def bufRead (i : Nat) (s : State) : Except Fault EdgeRecord :=
  if i < s.count.toNat then
    match Memory.lookup i s.buf with
    | some r => .ok r
    | none => .error (.bufReadOutside i)
  else .error (.bufReadOutside i)

/-- `[BufRead(0), ..., BufRead(n-1)]`, the first fault winning (40_capture_session.md R106). -/
def bufReadAll : Nat → State → Except Fault (List EdgeRecord)
  | 0, _ => .ok []
  | n + 1, s =>
    match bufReadAll n s with
    | .error f => .error f
    | .ok rs =>
      match bufRead n s with
      | .error f => .error f
      | .ok r => .ok (rs ++ [r])

/-- `BufWrite(i, rec)`, defined only at index count and below CAPACITY (20_memory.md R51). -/
def bufWrite (i : Nat) (rec : EdgeRecord) (s : State) : Except Fault State :=
  if i = s.count.toNat ∧ i < s.cfg.capacity then .ok { s with buf := Memory.store i rec s.buf }
  else .error (.bufWriteOutside i)

/-- `emit`: append output events in order (00_scope.md R13, 60_exceptions.md R214). -/
def emit (es : List Event) (s : State) : State := { s with events := s.events ++ es }

/-- `respond`: return a result word on the output port (00_scope.md R13, 30_encoding.md R76). -/
def respond (w : ResultWord) (s : State) : State := { s with results := s.results ++ [w] }

/-- `raise ModelFault(reason, info)`: record the reason and change nothing else; no later step follows
(60_exceptions.md R203; log 6). -/
def raiseModelFault (m : ModelFault) (s : State) : Host.Outcome State Fault Refusal :=
  .next { s with fault := some m }

/-- Interrupt entry, the start of an EDGE step: nothing is saved and no mode or mask changes (60_exceptions.md R209; log 20). -/
def interruptEntry (s : State) : State := s

/-- Interrupt return, the end of an EDGE step: nothing is restored (60_exceptions.md R210; log 20). -/
def interruptReturn (s : State) : Host.Outcome State Fault Refusal := .next s

/-- INIT has been performed (40_capture_session.md R101). -/
def markInitDone (s : State) : State := { s with initDone := true }

/-- START's wake-and-arm sequence, in order (40_capture_session.md R103). -/
def wakeAndArm (c : Config) : List Event :=
  [.lineDriveLow, .delayMs c.wakeLowMs, .lineRelease, .delayUs c.settleUs, .counterReset, .captureSetPolarity .both,
   .captureArm]

/-- The field writes of a START from Idle (40_capture_session.md R102). "Every entry now holds no value": nothing stays
listed in the buffer (log 9). -/
def openSession (nowMs : TickValue) (s : State) : State :=
  { s with
    count := 0#8
    buf := []
    newEdge := false
    lineMode := .released
    capPol := .both
    armed := true
    state := .capturing
    startMs := nowMs }

/-- The end of a session: disarm, and leave Capturing, in one step (20_memory.md R58). -/
def closeSession (next : SessionState) (s : State) : State :=
  emit [.captureDisarm] { s with armed := false, state := next }

/-- Append one Edge Record at index count and update count, last_ts and new_edge (40_capture_session.md R104). -/
def appendRecord (rec : EdgeRecord) (s : State) : Except Fault State :=
  match bufWrite s.count.toNat rec s with
  | .error f => .error f
  | .ok t => .ok { t with count := s.count + 1#8, lastTs := rec.ts, newEdge := true }

/-- A READ that finishes a session's result (40_capture_session.md R106). -/
def consumeSession (s : State) : State := { s with state := .idle }

/-- The arbiter takes the operation `r`, leaving `rest`: its inputs are sampled and it leaves the arrivals
(20_memory.md R56, 10_state.md R37). -/
def accept (r : Request) (rest : List Request) (s : State) : State := { s with arrivals := rest, inputs := r.inputs }

/-- Put an operation before all other arrivals, with the inputs the environment shows now (log 18). -/
def placeCommand (p : Port) (w : CommandWord) (s : State) : State :=
  { s with arrivals := { port := p, word := w, inputs := s.inputs } :: s.arrivals }

end Sys2Proof.Machine
end

