-- ==== Sys2Proof/Machine/Operands.lean ====
section
/-! DEFINITION. The operands: the sampled inputs at their full width, with no extension, scaling or shift
(30_encoding.md R72, 10_state.md R37). An input has the width of its row, so only its low bits exist (log 2). -/

namespace Sys2Proof.Machine

/-- NOW_MS, TICK_BITS wide, read by START and SERVICE. -/
def nowMs (s : State) : TickValue := s.inputs.nowMs % 2 ^ s.cfg.tickBits

/-- NOW_CNT, CNT_BITS wide, read by SERVICE. -/
def nowCnt (s : State) : CounterValue := s.inputs.nowCnt % 2 ^ s.cfg.cntBits

/-- TS, CNT_BITS wide, read by EDGE. -/
def edgeTs (s : State) : CounterValue := s.inputs.ts % 2 ^ s.cfg.cntBits

/-- The Edge Record of an EDGE: TS as given, and L as the level after the edge (30_encoding.md R78). -/
def edgeRecord (level : Bool) (s : State) : EdgeRecord := { ts := edgeTs s, lvl := level }

end Sys2Proof.Machine
end

