-- ==== Sys2Proof/Machine/Flags.lean ====
section
/-! DEFINITION. The conditions that set and clear the one-bit fields, and the STATUS view (40_capture_session.md R104,
R105; 10_state.md R21, R34). -/

namespace Sys2Proof.Machine

/-- `elapsed`, the ticks since START, modulo 2^TICK_BITS (40_capture_session.md R105). -/
def elapsed (c : Config) (now start : TickValue) : TickValue := subMod c.tickBits now start

/-- SERVICE's check 1, strict (40_capture_session.md R105). -/
def timeoutFires (c : Config) (now start : TickValue) : Bool := decide (c.timeoutLimit < elapsed c now start)

/-- `gap`, the counter units since the last edge, modulo 2^CNT_BITS (40_capture_session.md R105). -/
def gap (c : Config) (now last : CounterValue) : CounterValue := subMod c.cntBits now last

/-- SERVICE's check 2, strict (40_capture_session.md R105). -/
def silenceFires (c : Config) (now last : CounterValue) : Bool := decide (c.silenceLimit < gap c now last)

/-- The append at index count fills the buffer (40_capture_session.md R104). -/
def fillsBuffer (s : State) : Bool := decide (s.count.toNat + 1 = s.cfg.capacity)

/-- The 2-bit code of `state` (10_state.md R21). -/
def SessionState.code : SessionState → BitVec 2
  | .idle => 0#2
  | .capturing => 1#2
  | .ready => 2#2

/-- The session state of a 2-bit code; 3 has no meaning and is refused (10_state.md R21). -/
def SessionState.ofCode (b : BitVec 2) : Option SessionState :=
  if b = 0#2 then some .idle
  else if b = 1#2 then some .capturing
  else if b = 2#2 then some .ready
  else none

/-- The LINE bit (10_state.md R34). -/
def LineMode.bit : LineMode → Bool
  | .released => false
  | .driveLow => true

/-- The STATUS view (10_state.md R34). -/
def statusWord (s : State) : StatusWord :=
  s.count ++ (0#1 ++ (BitVec.ofBool s.fault.isSome ++ (BitVec.ofBool s.initDone ++ (BitVec.ofBool s.lineMode.bit ++
    (BitVec.ofBool s.newEdge ++ (BitVec.ofBool s.armed ++ s.state.code))))))

end Sys2Proof.Machine
end

