-- ==== Sys2Proof/Machine/Capture.lean ====
section
/-! DEFINITION. The capture interrupt handler: EDGE (40_capture_session.md R104, 60_exceptions.md R204). -/

namespace Sys2Proof.Machine

/-- EDGE while armed: append the record and, when it fills the buffer, close the session (40_capture_session.md R104). -/
def captureEdge (level : Bool) (s : State) : Host.Outcome State Fault Refusal :=
  if s.count.toNat < s.cfg.capacity then
    match appendRecord (edgeRecord level s) s with
    | .error f => .fault f
    | .ok t => interruptReturn (if fillsBuffer s then closeSession .ready t else t)
  else interruptReturn s

/-- EDGE: record one edge, or drop it while disarmed (40_capture_session.md R104). -/
def execEdge (level : Bool) (s : State) : Host.Outcome State Fault Refusal :=
  if s.armed then captureEdge level (interruptEntry s) else interruptReturn s

end Sys2Proof.Machine
end

