-- ==== Sys2Proof/Machine/Decoder.lean ====
section
/-! DEFINITION. The frame decoder pipeline, one definition per stage (41_frame_decoder.md R150 to R166), and the result
word (30_encoding.md R76 to R83). READ runs it; it has no opcode. -/

namespace Sys2Proof.Machine

/-- The width of the high pulse from a rising timestamp to a falling one (41_frame_decoder.md R151). -/
def pulseWidth (c : Config) (rise fall : CounterValue) : CounterValue := subMod c.cntBits fall rise

/-- The first falling record of a list (41_frame_decoder.md R152, the index j). -/
def nextFalling : List EdgeRecord → Option EdgeRecord
  | [] => none
  | r :: rest => if r.lvl then nextFalling rest else some r

/-- Pulse reconstruction with room for `room` more widths: every rising record pairs with the first falling record after
it, and the scan goes on from the record after the rising one (41_frame_decoder.md R152; log 23). -/
def pulsesUpTo (c : Config) : Nat → List EdgeRecord → List CounterValue
  | _, [] => []
  | 0, _ :: _ => []
  | room + 1, r :: rest =>
    if r.lvl then
      match nextFalling rest with
      | none => []
      | some f => pulseWidth c r.ts f.ts :: pulsesUpTo c room rest
    else pulsesUpTo c (room + 1) rest

/-- PULSES: at most MAX_PULSES widths (41_frame_decoder.md R152, R154). -/
def pulses (c : Config) (rs : List EdgeRecord) : List CounterValue := pulsesUpTo c c.maxPulses rs

/-- The sufficiency check (41_frame_decoder.md R155). -/
def sufficient (widths : List CounterValue) : Bool := decide (Config.framePulses ≤ widths.length)

/-- The data pulses d[0..39]: the ack is discarded, and so is every width after the 41st (41_frame_decoder.md R156). -/
def dataPulses (widths : List CounterValue) : List CounterValue := (widths.drop 1).take Config.dataBits

/-- The bit of one data pulse, strict (41_frame_decoder.md R157). -/
def classify (c : Config) (d : CounterValue) : Bool := decide (c.bitThreshold < d)

/-- The data bits of the reconstructed widths (41_frame_decoder.md R156, R157). -/
def frameBits (c : Config) (widths : List CounterValue) : List Bool := (dataPulses widths).map (classify c)

/-- Byte m: the sum over b of bit[8m + b] * 2^(7 - b), first bit most significant (41_frame_decoder.md R158). -/
def assembleByte (bits : List Bool) (m : Nat) : Byte :=
  BitVec.ofNat 8 (((List.range 8).map fun b => (bits.getD (8 * m + b) false).toNat * 2 ^ (7 - b)).sum)

/-- The five bytes in arrival order (41_frame_decoder.md R158). -/
def assembleFrame (bits : List Bool) : Frame where
  b0 := assembleByte bits 0
  b1 := assembleByte bits 1
  b2 := assembleByte bits 2
  b3 := assembleByte bits 3
  b4 := assembleByte bits 4

/-- The low 8 bits of the sum of the first four bytes (30_encoding.md R82). -/
def checksum (b0 b1 b2 b3 : Byte) : Byte := BitVec.ofNat 8 (b0.toNat + b1.toNat + b2.toNat + b3.toNat)

/-- Checksum verification (41_frame_decoder.md R159). -/
def checksumOk (f : Frame) : Bool := decide (checksum f.b0 f.b1 f.b2 f.b3 = f.b4)

/-- A 16-bit big-endian field, byte_hi * 256 + byte_lo (20_memory.md R54). -/
def bigEndian (hi lo : Byte) : DataField := BitVec.ofNat 16 (hi.toNat * 256 + lo.toNat)

/-- A result that carries no data (41_frame_decoder.md R164). -/
def Result.bare (code : ResultCode) : Result := { code := code, tRaw := 0#16, hRaw := 0#16 }

/-- The result of an assembled frame (41_frame_decoder.md R159 to R161, R164). -/
def frameResult (f : Frame) : Result :=
  if checksumOk f then { code := .ok, tRaw := bigEndian f.b2 f.b3, hRaw := bigEndian f.b0 f.b1 }
  else Result.bare .checksumMismatch

/-- DECODE (41_frame_decoder.md R164). The framing error wins over the checksum (R163). -/
def decodeFrame (c : Config) (rs : List EdgeRecord) : Result :=
  if sufficient (pulses c rs) then frameResult (assembleFrame (frameBits c (pulses c rs)))
  else Result.bare .framingError

/-- The 3-bit code of a result (30_encoding.md R77). -/
def ResultCode.bits : ResultCode → BitVec 3
  | .ok => 0#3
  | .busy => 1#3
  | .timedOut => 2#3
  | .checksumMismatch => 3#3
  | .framingError => 4#3

/-- The result code of 3 bits; 5, 6 and 7 are never produced (30_encoding.md R77). -/
def ResultCode.ofBits (b : BitVec 3) : Option ResultCode :=
  if b = 0#3 then some .ok
  else if b = 1#3 then some .busy
  else if b = 2#3 then some .timedOut
  else if b = 3#3 then some .checksumMismatch
  else if b = 4#3 then some .framingError
  else none

/-- The 40-bit result word (30_encoding.md R76). -/
def Result.word (r : Result) : ResultWord := r.hRaw ++ (r.tRaw ++ (0#5 ++ r.code.bits))

/-- CODE, bits [2:0] of a result word (30_encoding.md R76). -/
def codeField (w : ResultWord) : BitVec 3 := w.extractLsb' 0 3

/-- T_RAW, bits [23:8] of a result word (30_encoding.md R76). -/
def tRawField (w : ResultWord) : DataField := w.extractLsb' 8 16

/-- H_RAW, bits [39:24] of a result word (30_encoding.md R76). -/
def hRawField (w : ResultWord) : DataField := w.extractLsb' 24 16

/-- T_SIGN = T_RAW[15] (30_encoding.md R81). -/
def tSign (t : DataField) : Bool := t.getLsbD 15

/-- T_MAG = T_RAW[14:0] (30_encoding.md R81). -/
def tMag (t : DataField) : BitVec 15 := t.extractLsb' 0 15

/-- The humidity in tenths (30_encoding.md R80, R83). -/
def humidityTenths (h : DataField) : Nat := h.toNat

/-- The temperature in tenths; a negative zero is the integer 0 with T_SIGN set (30_encoding.md R81, R83). -/
def temperatureTenths (t : DataField) : Int := if tSign t then -((tMag t).toNat : Int) else ((tMag t).toNat : Int)

/-- The humidity's float view (41_frame_decoder.md R162; log 12). -/
def humidityFloat (h : DataField) : FloatCode := Config.floatRender (humidityTenths h)

/-- The temperature's float view, the sign applied after scaling (41_frame_decoder.md R162; log 12). -/
def temperatureFloat (t : DataField) : FloatCode :=
  if tSign t then Config.floatNegate (Config.floatRender (tMag t).toNat) else Config.floatRender (tMag t).toNat

end Sys2Proof.Machine
end

