-- ==== Sys2Proof/Machine/Session.lean ====
section
/-! DEFINITION. The foreground operations: INIT, START, SERVICE and READ (40_capture_session.md R101 to R106). -/

namespace Sys2Proof.Machine

/-- INIT: the one-time setup (40_capture_session.md R101). -/
def execInit (s : State) : Host.Outcome State Fault Refusal :=
  if s.initDone then .next s else .next (markInitDone (emit [.delayInit] s))

/-- START: begin a transaction from Idle; otherwise no effect (40_capture_session.md R102, R103). -/
def execStart (s : State) : Host.Outcome State Fault Refusal :=
  if s.initDone then
    match s.state with
    | .idle => .next (openSession (nowMs s) (emit (wakeAndArm s.cfg) s))
    | .capturing => .next s
    | .ready => .next s
  else raiseModelFault .startBeforeInit s

/-- SERVICE's silence check, after the timeout check has not fired: `last_ts` is read only with a record held, whose EDGE
wrote it (40_capture_session.md R105, 10_state.md R25). -/
def serviceSilence (s : State) : Host.Outcome State Fault Refusal :=
  if 1 ≤ s.count.toNat then
    if silenceFires s.cfg (nowCnt s) s.lastTs then .next (closeSession .ready s) else .next s
  else .next s

/-- SERVICE in Capturing: the timeout first, and the first check that fires ends the operation. `start_ms` is read only
here, where START wrote it (40_capture_session.md R105, 10_state.md R27; log 23). -/
def serviceCapturing (s : State) : Host.Outcome State Fault Refusal :=
  if timeoutFires s.cfg (nowMs s) s.startMs then .next (closeSession .idle s) else serviceSilence s

/-- SERVICE: detect the end of the session (40_capture_session.md R105). -/
def execService (s : State) : Host.Outcome State Fault Refusal :=
  match s.state with
  | .idle => .next s
  | .capturing => serviceCapturing s
  | .ready => .next s

/-- READ in Ready: decode the records once, move to Idle, respond (40_capture_session.md R106). -/
def readReady (s : State) : Host.Outcome State Fault Refusal :=
  match bufReadAll s.count.toNat s with
  | .error f => .fault f
  | .ok rs => .next (respond (decodeFrame s.cfg rs).word (consumeSession s))

/-- READ: fetch the outcome of the most recent transaction (40_capture_session.md R106). -/
def execRead (s : State) : Host.Outcome State Fault Refusal :=
  match s.state with
  | .idle => .next (respond (Result.bare .timedOut).word s)
  | .capturing => .next (respond (Result.bare .busy).word s)
  | .ready => readReady s

end Sys2Proof.Machine
end

