-- ==== Sys2Proof/Machine/Dispatch.lean ====
section
/-! DEFINITION. One arm per instruction (40_capture_session.md R100). -/

namespace Sys2Proof.Machine

def exec (i : Instr) (s : State) : Host.Outcome State Fault Refusal :=
  match i with
  | .init => Sys2Proof.Machine.execInit s
  | .start => Sys2Proof.Machine.execStart s
  | .service => Sys2Proof.Machine.execService s
  | .read => Sys2Proof.Machine.execRead s
  | .edge level => Sys2Proof.Machine.execEdge level s

end Sys2Proof.Machine
end

