-- ==== Sys2Proof/Machine/Step.lean ====
section
/-! DEFINITION. One step of the block (40_capture_session.md R100). -/

namespace Sys2Proof.Machine

/-- The block takes the next operation in arbitration order. A configuration that breaks 00_scope.md R10 is refused; a
faulted block has no step; an illegal word faults before dispatch; otherwise the decoded instruction runs
(40_capture_session.md R100, 60_exceptions.md R203; log 15). -/
def step (s : State) : Host.Outcome State Fault Refusal :=
  if s.cfg.wf then
    match s.fault with
    | some m => .fault (.stopped m)
    | none =>
      match s.arrivals with
      | [] => .refused .noOperation
      | r :: rest =>
        match decode r.port r.word with
        | .error _ => raiseModelFault (.illegalCommand r.port r.word) (accept r rest s)
        | .ok i => exec i (accept r rest s)
  else .refused .badConfiguration

/-- `s` with the word `w` as the next operation to arrive, on the port of its row (log 18). Every command is 8 bits, so
the number of bits adds nothing. -/
def State.withFetchWord (s : State) (_nbits w : Nat) : State :=
  placeCommand (portOfWord (BitVec.ofNat 8 w)) (BitVec.ofNat 8 w) s

end Sys2Proof.Machine
end

