-- ==== Sys2Proof/Machine/Blocks.lean ====
section
/-! DEFINITION. Several blocks side by side (60_exceptions.md R216; log 17): each has its own state, and they share nothing. -/

namespace Sys2Proof.Machine

/-- One step of block `k` of several. The others do not take part; a block that does not exist has no step. -/
def stepBlock (k : Nat) (blocks : List State) : Option (Host.Outcome (List State) Fault Refusal) :=
  match blocks[k]? with
  | none => none
  | some s =>
    match step s with
    | .next t => some (.next (blocks.set k t))
    | .fault f => some (.fault f)
    | .refused r => some (.refused r)

end Sys2Proof.Machine
end

