-- ==== Sys2Proof/Machine/Stimulus.lean ====
section
/-! DEFINITION. The pseudo-instructions RISE, FALL, HIPULSE, FRAME and FRAMEC (30_encoding.md R85), which expand to EDGE
operations. They are test stimulus, not operations of the block. All additions are modulo 2^CNT_BITS. -/

namespace Sys2Proof.Machine

/-- The width of the ack pulse of a FRAME. -/
def ackWidth : Nat := 80
/-- The width of a 1 bit of a FRAME. -/
def oneWidth : Nat := 70
/-- The width of a 0 bit of a FRAME. -/
def zeroWidth : Nat := 28
/-- The low gap between two pulses of a FRAME. -/
def lowGap : Nat := 50

/-- An operation with no sampled input but those given. -/
def Request.make (i : Instr) (nowMs nowCnt ts : Nat) : Request where
  port := i.port
  word := encode i
  inputs := { nowMs := nowMs, nowCnt := nowCnt, ts := ts }

/-- The EDGE operation that delivers a record. -/
def edgeRequest (r : EdgeRecord) : Request := Request.make (.edge r.lvl) 0 0 r.ts

/-- `RISE t`, as a record. -/
def rise (t : CounterValue) : EdgeRecord := { ts := t, lvl := true }

/-- `FALL t`, as a record. -/
def fall (t : CounterValue) : EdgeRecord := { ts := t, lvl := false }

/-- `HIPULSE t, w`: RISE t, then FALL t + w. -/
def hiPulse (c : Config) (t w : Nat) : List EdgeRecord := [rise t, fall (addMod c.cntBits t w)]

/-- High pulses of the given widths, the first rising at `t`, with the low gap of a FRAME between them. -/
def pulseTrain (c : Config) : CounterValue → List Nat → List EdgeRecord
  | _, [] => []
  | t, w :: ws => hiPulse c t w ++ pulseTrain c (addMod c.cntBits (addMod c.cntBits t w) lowGap) ws

/-- Byte m of a frame in arrival order (30_encoding.md R79). -/
def Frame.byte (f : Frame) (m : Nat) : Byte :=
  match m with
  | 0 => f.b0
  | 1 => f.b1
  | 2 => f.b2
  | 3 => f.b3
  | _ => f.b4

/-- Data bit k in arrival order: bit 7 - (k mod 8) of byte floor(k / 8) (20_memory.md R54). -/
def Frame.bit (f : Frame) (k : Nat) : Bool := (f.byte (k / 8)).getLsbD (7 - k % 8)

/-- The width FRAME gives a data bit. -/
def bitWidth (b : Bool) : Nat := if b then oneWidth else zeroWidth

/-- The 41 widths of a FRAME: the ack pulse, then the 40 data bits. -/
def frameWidths (f : Frame) : List Nat := ackWidth :: (List.range Config.dataBits).map fun k => bitWidth (f.bit k)

/-- The 82 records of `FRAME t0, b0, b1, b2, b3, b4`. -/
def frameRecords (c : Config) (t0 : CounterValue) (f : Frame) : List EdgeRecord := pulseTrain c t0 (frameWidths f)

/-- The frame of FRAMEC: the checksum byte is the low 8 bits of the sum of the others. -/
def checkedFrame (b0 b1 b2 b3 : Byte) : Frame where
  b0 := b0
  b1 := b1
  b2 := b2
  b3 := b3
  b4 := checksum b0 b1 b2 b3

end Sys2Proof.Machine
end

