-- ==== Sys2Proof/Safety.lean ====
section
/-! DEFINITION. What counts as a safe state and a safe run: the invariant of 10_state.md R33, the observation of a run
(00_scope.md R19), and the environment contract (60_exceptions.md R206, R210, R215; logs 21, 24, 25), which is a premise of a
claim and never a step guard. -/

namespace Sys2Proof.Machine

/-- The observation of a run: the READ result words and the output events, each in order (00_scope.md R19). -/
structure Observation where
  results : List ResultWord
  events : List Event
  deriving DecidableEq, Repr

/-- What a run has shown so far (00_scope.md R19). -/
def observe (s : State) : Observation := { results := s.results, events := s.events }

/-- A state that can still take steps: a configuration within 00_scope.md R10, and no fault (60_exceptions.md R203). -/
def SafeState (s : State) : Prop := s.cfg.wf = true ∧ s.fault = none

/-- The timestamps and the start tick are values of their widths (00_scope.md R12, 10_state.md R20). -/
structure InRange (s : State) : Prop where
  records : ∀ i r, Memory.lookup i s.buf = some r → r.ts < 2 ^ s.cfg.cntBits
  last_ts : s.lastTs < 2 ^ s.cfg.cntBits
  start_ms : s.startMs < 2 ^ s.cfg.tickBits

/-- The invariant of 10_state.md R33 (items 1 to 4, 6 and 7; item 5 is about a step), with what R23 and R102
add: which entries hold a value, and that a session starts after INIT. -/
structure Inv (s : State) : Prop where
  /-- R33 item 1. -/
  armed_iff : s.armed = true ↔ s.state = .capturing
  /-- R33 item 2. -/
  count_le : s.count.toNat ≤ s.cfg.capacity
  /-- R33 item 2, in Capturing. -/
  capturing_room : s.state = .capturing → s.count.toNat < s.cfg.capacity
  /-- R33 item 3. -/
  last_ts_newest : 1 ≤ s.count.toNat → ∃ r, bufRead (s.count.toNat - 1) s = .ok r ∧ s.lastTs = r.ts
  /-- R33 item 4. -/
  new_edge_iff : s.newEdge = true ↔ 1 ≤ s.count.toNat
  /-- R33 item 6. -/
  armed_both : s.armed = true → s.capPol = .both
  /-- R33 item 7. -/
  line_released : s.lineMode = .released
  /-- The buffer has its canonical form. -/
  buf_wf : Memory.wf s.buf = true
  /-- The entries that hold a value are those below count (R23). -/
  buf_listed : ∀ i, (Memory.lookup i s.buf).isSome = true ↔ i < s.count.toNat
  /-- A session starts only after INIT (R102). -/
  session_initialised : s.state ≠ .idle → s.initDone = true
  /-- `Ready` holds at least one record (95_test_vectors.md D-7). -/
  ready_nonempty : s.state = .ready → 1 ≤ s.count.toNat
  /-- Every stored value has its width. -/
  in_range : InRange s

/-- The state `t` follows from `s` by steps of the block. -/
inductive Reaches : State → State → Prop where
  | refl (s : State) : Reaches s s
  | step {s t u : State} : Reaches s t → Sys2Proof.Machine.step t = .next u → Reaches s u

/-- A command word that is a row of the opcode map on its port (30_encoding.md R73, R74). -/
def legalRequest (r : Request) : Bool :=
  match decode r.port r.word with
  | .ok _ => true
  | .error _ => false

/-- The foreground and the capture agent issue only legal words (60_exceptions.md R215, last paragraph). -/
def LegalArrivals (l : List Request) : Prop := ∀ r ∈ l, legalRequest r = true

/-- The operations of one port, in order. -/
def portArrivals (p : Port) (l : List Request) : List Request := l.filter fun r => decide (r.port = p)

/-- An arbitration order of what the two ports carry: each port keeps its own order, and between them the order is free
(20_memory.md R56, 60_exceptions.md R206). -/
def Interleaves (fg cap l : List Request) : Prop :=
  portArrivals .foreground l = fg ∧ portArrivals .capture l = cap

/-- The capture agent delivers an in-order subsequence of the line's transitions (60_exceptions.md R210, R215). -/
def DeliversFrom (line : List EdgeRecord) (cap : List Request) : Prop :=
  ∃ delivered, List.Sublist delivered line ∧ cap = delivered.map edgeRequest

/-- START and SERVICE sample NOW_MS (30_encoding.md R72). -/
def samplesTick : Instr → Bool
  | .init => false
  | .start => true
  | .service => true
  | .read => false
  | .edge _ => false

/-- SERVICE samples the counter as NOW_CNT, and EDGE brings its captured value as TS (30_encoding.md R72). -/
def samplesCounter : Instr → Bool
  | .init => false
  | .start => false
  | .service => true
  | .read => false
  | .edge _ => true

/-- The operations of a list whose instruction has a property, in order. -/
def operationsThat (has : Instr → Bool) (l : List Request) : List Request :=
  l.filter fun r =>
    match decode r.port r.word with
    | .ok i => has i
    | .error _ => false

/-- The counter value an operation brings: NOW_CNT on FG, TS on CAP (30_encoding.md R72). -/
def counterSample (r : Request) : CounterValue :=
  match r.port with
  | .foreground => r.inputs.nowCnt
  | .capture => r.inputs.ts

/-- Of two operations taken in this order, with their true counter units, the second was sampled no earlier. One case is
free: an EDGE may be taken after a SERVICE that sampled the counter once the edge had occurred (60_exceptions.md R206). In
every other case the order of taking is the order of sampling: each port keeps its order, and an edge occurs before it is
taken (20_memory.md R56, 60_exceptions.md R215; log 21). -/
def SampledInOrder (x y : Request × Nat) : Prop :=
  (x.1.port = .foreground ∧ y.1.port = .capture) ∨ x.2 ≤ y.2

/-- The NOW_MS samples come from a monotonic tick, modulo 2^TICK_BITS; `ticks` are its true values at the operations that
sample it (60_exceptions.md R213, R215). -/
def MonotonicTick (c : Config) (ticks : List Nat) (l : List Request) : Prop :=
  ticks.Pairwise (· ≤ ·) ∧
    (operationsThat samplesTick l).map (fun r => r.inputs.nowMs) = ticks.map fun t => t % 2 ^ c.tickBits

/-- NOW_CNT and TS after a CounterReset are the elapsed counter units since it, modulo 2^CNT_BITS; `counts` are the true
elapsed units at the operations of one session that bring a counter value (60_exceptions.md R213, R215). -/
def CountsSinceReset (c : Config) (counts : List Nat) (l : List Request) : Prop :=
  ((operationsThat samplesCounter l).zip counts).Pairwise SampledInOrder ∧
    (operationsThat samplesCounter l).map counterSample = counts.map fun n => n % 2 ^ c.cntBits

/-- The foreground keeps issuing SERVICE while Capturing: along the first `k` steps from `s`, in every Capturing state one
of its next `n` operations is a SERVICE (60_exceptions.md R215). The spec gives no bound, so `n` is a claim's to choose
(log 24). -/
def KeepsPolling (n : Nat) : Nat → State → Prop
  | 0, _ => True
  | k + 1, s =>
    (s.state = .capturing →
        ∃ r ∈ (portArrivals .foreground s.arrivals).take n, decode r.port r.word = .ok .service) ∧
      ∀ t, Sys2Proof.Machine.step s = .next t → KeepsPolling n k t

/-- The capture agent delivers edges only while the block is armed, along the first `k` steps from `s`
(60_exceptions.md R204, R215). DESIGN CHOICE, log 25: an edge counts as delivered when its EDGE is taken, so this leaves
out the run in which an EDGE was ready before the operation that closes the session and is taken after it, and dropped
(R207). Steps take that run like any other. -/
def EdgesWhileArmed : Nat → State → Prop
  | 0, _ => True
  | k + 1, s =>
    (∀ r rest level, s.arrivals = r :: rest → decode r.port r.word = .ok (.edge level) → s.armed = true) ∧
      ∀ t, Sys2Proof.Machine.step s = .next t → EdgesWhileArmed k t

end Sys2Proof.Machine
end

