-- ==== Sys2Proof/Certificates/Slice0/Obligations.lean ====
section
/-! DEFINITION. The statements for the provers. Each docstring says which sentence of the spec it formalises. -/

namespace Sys2Proof.Claims

open Sys2Proof.Machine

/-- The operations `l`, taken in order from `s`: one step each. -/
def run (l : List Request) (s : State) : Host.Outcome State Fault Refusal :=
  Host.Core.run Sys2Proof.core l.length { s with arrivals := l }

/-- The conditions of 30_encoding.md R74, read from the bits of the word. -/
def IllegalOn (p : Port) (w : CommandWord) : Prop :=
  5 ≤ (w.extractLsb' 0 3).toNat ∨ w.extractLsb' 4 4 ≠ 0#4 ∨ (w.getLsbD 3 = true ∧ w.extractLsb' 0 3 ≠ 4#3) ∨
    (w.extractLsb' 0 3 = 4#3 ∧ p = .foreground) ∨ (w.extractLsb' 0 3 ≠ 4#3 ∧ p = .capture)

/-- The constraints of 00_scope.md R10, written out. -/
def MeetsR10 (c : Config) : Prop :=
  1 ≤ c.capacity ∧ c.capacity ≤ 255 ∧ 41 ≤ c.maxPulses ∧ 1 ≤ c.cntBits ∧ c.silenceLimit < 2 ^ c.cntBits ∧
    c.bitThreshold < 2 ^ c.cntBits ∧ 1 ≤ c.tickBits ∧ c.timeoutLimit < 2 ^ c.tickBits ∧ 1 ≤ c.wakeLowMs

/-- The instruction a request's word stands for on its port. -/
def Issues (r : Request) (i : Instr) : Prop := decode r.port r.word = .ok i

/-- SERVICE's timeout condition, over the integers (40_capture_session.md R105). -/
def TimedOut (c : Config) (now start : Nat) : Prop :=
  (c.timeoutLimit : Int) < ((now : Int) - (start : Int)) % (2 : Int) ^ c.tickBits

/-- SERVICE's silence condition, over the integers (40_capture_session.md R105). -/
def Silent (c : Config) (now last : Nat) : Prop :=
  (c.silenceLimit : Int) < ((now : Int) - (last : Int)) % (2 : Int) ^ c.cntBits

/-- The seven events of START (40_capture_session.md R103). -/
def wakeEvents (c : Config) : List Event :=
  [.lineDriveLow, .delayMs c.wakeLowMs, .lineRelease, .delayUs c.settleUs, .counterReset, .captureSetPolarity .both,
   .captureArm]

/-- The state after a session closes into `n` (20_memory.md R58). -/
def closed (n : SessionState) (s : State) : State :=
  { s with armed := false, state := n, events := s.events ++ [.captureDisarm] }

/-- TIMED_OUT with zero data fields (30_encoding.md R76, R77). -/
def timedOutWord : ResultWord := 0x0000000002#40

/-- BUSY with zero data fields. -/
def busyWord : ResultWord := 0x0000000001#40

/-- CHECKSUM_MISMATCH with zero data fields. -/
def checksumWord : ResultWord := 0x0000000003#40

/-- FRAMING_ERROR with zero data fields. -/
def framingWord : ResultWord := 0x0000000004#40

/-- The width of the pulse that starts at record i, if one does (41_frame_decoder.md R152). -/
def pulseAt (c : Config) (rs : List EdgeRecord) (i : Nat) : Option Nat :=
  match rs[i]? with
  | none => none
  | some r =>
    if r.lvl then
      ((rs.drop (i + 1)).find? fun f => !f.lvl).map fun f => (((f.ts : Int) - (r.ts : Int)) % (2 : Int) ^ c.cntBits).toNat
    else none

/-- The other reading of the pairing: the scan resumes after the matched falling record (41_frame_decoder.md R152). The
argument is the rising record that waits for its falling record. -/
def pairResuming (c : Config) : Option EdgeRecord → List EdgeRecord → List Nat
  | _, [] => []
  | none, r :: rest => if r.lvl then pairResuming c (some r) rest else pairResuming c none rest
  | some a, r :: rest => if r.lvl then pairResuming c (some a) rest else pulseWidth c a.ts r.ts :: pairResuming c none rest

/-- Two runs that went alike: both stopped for the same reason, or both go on in states that differ at most in a `last_ts`
of a session without a record and in a `start_ms` outside Capturing, which no operation reads (10_state.md R25, R27). -/
def SameRun : Host.Outcome State Fault Refusal → Host.Outcome State Fault Refusal → Prop
  | .next s, .next t =>
    t = { s with lastTs := t.lastTs, startMs := t.startMs } ∧ (1 ≤ s.count.toNat → t.lastTs = s.lastTs) ∧
      (s.state = .capturing → t.startMs = s.startMs)
  | .fault f, .fault g => f = g
  | .refused f, .refused g => f = g
  | _, _ => False

/-- The target state of the complete transition table (40_capture_session.md R107). -/
def nextSession (s : State) (i : Instr) : SessionState :=
  match s.state, i with
  | .idle, .start => .capturing
  | .capturing, .edge _ => if s.count.toNat + 1 = s.cfg.capacity then .ready else .capturing
  | .capturing, .service =>
    if timeoutFires s.cfg (nowMs s) s.startMs then .idle
    else if decide (1 ≤ s.count.toNat) && silenceFires s.cfg (nowCnt s) s.lastTs then .ready
    else .capturing
  | .ready, .read => .idle
  | st, _ => st

/-- The output events of the complete transition table (40_capture_session.md R107). -/
def tableEvents (s : State) (i : Instr) : List Event :=
  match s.state, i with
  | .idle, .start => wakeEvents s.cfg
  | .capturing, _ => if nextSession s i = .capturing then [] else [.captureDisarm]
  | _, _ => []

/-- The field writes of the side-effect column, with `b` as the buffer after them: a row that appends or clears writes
these fields and no other, and a row marked none writes nothing (40_capture_session.md R102, R104, R105, R107). -/
def tableFields (s : State) (i : Instr) (b : Memory) : State :=
  match s.state, i with
  | .idle, .start =>
    { s with
      buf := b, count := 0#8, newEdge := false, lineMode := .released, capPol := .both, armed := true,
      startMs := s.inputs.nowMs % 2 ^ s.cfg.tickBits }
  | .capturing, .edge _ =>
    { s with
      buf := b, count := s.count + 1#8, lastTs := s.inputs.ts % 2 ^ s.cfg.cntBits, newEdge := true,
      armed := decide (s.count.toNat + 1 ≠ s.cfg.capacity) }
  | .capturing, .service => { s with armed := decide (nextSession s .service = .capturing) }
  | _, _ => s

/-- What the buffer reads after a row: cleared by a START from Idle, one record longer after an EDGE in Capturing, as it
was otherwise. -/
def TableBuffer (s : State) (i : Instr) (t : State) : Prop :=
  match s.state, i with
  | .idle, .start => ∀ j, bufRead j t = .error (.bufReadOutside j)
  | .capturing, .edge level =>
    ∀ j, bufRead j t =
      if j = s.count.toNat then .ok { ts := s.inputs.ts % 2 ^ s.cfg.cntBits, lvl := level } else bufRead j s
  | _, _ => t.buf = s.buf

/-- The result column of the complete transition table, as result codes (40_capture_session.md R107). -/
def TableResults (s : State) (i : Instr) (ws : List ResultWord) : Prop :=
  match s.state, i with
  | .idle, .read => ws = [timedOutWord]
  | .capturing, .read => ws = [busyWord]
  | .ready, .read => ∃ w, ws = [w] ∧ (codeField w = 0#3 ∨ codeField w = 3#3 ∨ codeField w = 4#3)
  | _, _ => ws = []

end Sys2Proof.Claims

open Sys2Proof Sys2Proof.Machine Sys2Proof.Claims
open Host (Outcome)

/-! ## Reset, configuration, views -/

/-- 10_state.md R39, 70_reset_and_hazards.md R230: the reset value of every field the spec gives one, the entries of `buf`
that fault on a read, the STATUS view, and that reset emits no event and gives no result. `last_ts` and `start_ms` are
unspecified, and no operation reads either before it writes it: whatever they hold at reset, every run goes alike (the
values the model names, log 8, are never seen). -/
def Obligations.ResetHoldsTheSpecValues : Prop :=
  ∀ c : Config, ∀ s : State, s = State.resetWith c →
    s.state = .idle ∧ (∀ i, bufRead i s = .error (.bufReadOutside i)) ∧ s.count = 0#8 ∧
      s.newEdge = false ∧ s.armed = false ∧ s.capPol = .unset ∧ s.lineMode = .released ∧ s.initDone = false ∧ s.fault = none ∧
      statusWord s = 0x0000#16 ∧ s.events = [] ∧ s.results = [] ∧
      ∀ (last start : Nat) (l : List Request), SameRun (run l s) (run l { s with lastTs := last, startMs := start })

/-- 10_state.md R34: the layout of the STATUS view, every bit of it. -/
def Obligations.StatusViewLayout : Prop :=
  ∀ s : State,
    (statusWord s).extractLsb' 0 2 = s.state.code ∧ (statusWord s).getLsbD 2 = s.armed ∧
      (statusWord s).getLsbD 3 = s.newEdge ∧ ((statusWord s).getLsbD 4 = true ↔ s.lineMode = .driveLow) ∧
      (statusWord s).getLsbD 5 = s.initDone ∧ ((statusWord s).getLsbD 6 = true ↔ s.fault ≠ none) ∧
      (statusWord s).getLsbD 7 = false ∧ (statusWord s).extractLsb' 8 8 = s.count

/-- 10_state.md R21: the codes of `state`; 3 is refused. -/
def Obligations.SessionStateCodes : Prop :=
  SessionState.code .idle = 0#2 ∧ SessionState.code .capturing = 1#2 ∧ SessionState.code .ready = 2#2 ∧
    (∀ st : SessionState, SessionState.ofCode st.code = some st) ∧ SessionState.ofCode 3#2 = none

/-- 00_scope.md R10: a configuration that breaks a constraint is refused, whatever the rest of the state; one that meets
them all is not. -/
def Obligations.ConfigurationOutsideConstraintsIsRefused : Prop :=
  ∀ s : State, (¬MeetsR10 s.cfg → step s = .refused .badConfiguration) ∧
    (MeetsR10 s.cfg → step s ≠ .refused .badConfiguration)

/-! ## Commands and the step -/

/-- 30_encoding.md R73: a decoder selects a row by mask and match, and the port is the row's. -/
def Obligations.DecodeAgreesWithTheOpcodeMap : Prop :=
  ∀ (p : Port) (w : CommandWord),
    (decode p w = .ok .init ↔ p = .foreground ∧ w &&& 0xFF#8 = 0x00#8) ∧
      (decode p w = .ok .start ↔ p = .foreground ∧ w &&& 0xFF#8 = 0x01#8) ∧
      (decode p w = .ok .service ↔ p = .foreground ∧ w &&& 0xFF#8 = 0x02#8) ∧
      (decode p w = .ok .read ↔ p = .foreground ∧ w &&& 0xFF#8 = 0x03#8) ∧
      ∀ l : Bool, decode p w = .ok (.edge l) ↔ p = .capture ∧ w &&& 0xF7#8 = 0x04#8 ∧ w.getLsbD 3 = l

/-- 30_encoding.md R70, R73: decode and encode agree in both directions, on the port of the instruction. -/
def Obligations.DecodeInvertsEncode : Prop :=
  (∀ i : Instr, decode i.port (encode i) = .ok i ∧ decodeTableWord 8 (encode i).toNat = some i) ∧
    ∀ (p : Port) (w : CommandWord) (i : Instr), decode p w = .ok i → w = encode i ∧ p = i.port

/-- 30_encoding.md R73: words written out bit by bit from the map. -/
def Obligations.WrittenOutWordsDecode : Prop :=
  decode .foreground 0b00000000#8 = .ok .init ∧ decode .foreground 0b00000001#8 = .ok .start ∧
    decode .foreground 0b00000010#8 = .ok .service ∧ decode .foreground 0b00000011#8 = .ok .read ∧
    decode .capture 0b00000100#8 = .ok (.edge false) ∧ decode .capture 0b00001100#8 = .ok (.edge true)

/-- 40_capture_session.md R100: where the next word decodes, the step is the instruction's own, on the state from which
the arbiter has taken the operation and sampled its inputs. -/
def Obligations.StepRunsTheDecodedInstruction : Prop :=
  ∀ (s : State) (r : Request) (rest : List Request) (i : Instr),
    s.cfg.wf = true → s.fault = none → s.arrivals = r :: rest → decode r.port r.word = .ok i →
      step s = exec i { s with arrivals := rest, inputs := r.inputs }

/-- The word of every instruction, placed as the next arrival, runs exactly that instruction (40_capture_session.md
R100). -/
def Obligations.PlacedWordRunsAsItself : Prop :=
  ∀ (s : State) (i : Instr), s.cfg.wf = true → s.fault = none →
    step (s.withFetchWord 8 (encode i).toNat) = exec i s

/-- 30_encoding.md R74: every word on each port is either illegal, and then the step records the fault and has no other
effect, or one row of the map. -/
def Obligations.IllegalWordFaultsAndNothingElse : Prop :=
  ∀ (s : State) (r : Request) (rest : List Request),
    s.cfg.wf = true → s.fault = none → s.arrivals = r :: rest →
      (IllegalOn r.port r.word →
        step s = .next { s with
          arrivals := rest, inputs := r.inputs, fault := some (.illegalCommand r.port r.word) }) ∧
      (¬IllegalOn r.port r.word → ∃ i : Instr, decode r.port r.word = .ok i)

/-- 60_exceptions.md R203: a recorded fault stops every later step, whatever arrives, and shows in STATUS; only two
reasons are ever recorded, each by its own cause, and the faulting operation makes no other change and emits no event. -/
def Obligations.ModelFaultsAreTwoAndFinal : Prop :=
  (∀ (s : State) (m : ModelFault), s.cfg.wf = true → s.fault = some m →
      step s = .fault (.stopped m) ∧ (statusWord s).getLsbD 6 = true) ∧
    ∀ (s t : State) (m : ModelFault), step s = .next t → t.fault = some m →
      ∃ r rest, s.arrivals = r :: rest ∧
        t = { s with arrivals := rest, inputs := r.inputs, fault := some m } ∧
        ((IllegalOn r.port r.word ∧ m = .illegalCommand r.port r.word) ∨
          (Issues r .start ∧ s.initDone = false ∧ m = .startBeforeInit))

/-- 00_scope.md R18, 20_memory.md R56: a step takes exactly one operation, the first to arrive, and samples its inputs;
the configuration is never written (the list of arrivals and the configuration field are the model's, logs 1 and 3). -/
def Obligations.EachStepTakesOneOperation : Prop :=
  ∀ s t : State, step s = .next t →
    ∃ r, s.arrivals = r :: t.arrivals ∧ t.inputs = r.inputs ∧ t.cfg = s.cfg

/-! ## The five instructions -/

/-- 40_capture_session.md R101: INIT, in every state. -/
def Obligations.InitSetsUpOnce : Prop :=
  ∀ s : State,
    (s.initDone = false → exec .init s = .next { s with initDone := true, events := s.events ++ [.delayInit] }) ∧
      (s.initDone = true → exec .init s = .next s)

/-- 40_capture_session.md R102: START, in every state. The buffer it leaves holds no value at any index (log 9). -/
def Obligations.StartBeginsASessionFromIdle : Prop :=
  ∀ s : State,
    (s.initDone = false → exec .start s = .next { s with fault := some .startBeforeInit }) ∧
      (s.initDone = true → s.state ≠ .idle → exec .start s = .next s) ∧
      (s.initDone = true → s.state = .idle →
        ∃ t, exec .start s = .next t ∧
          t = { s with
            count := 0#8, buf := t.buf, newEdge := false, lineMode := .released, capPol := .both, armed := true,
            state := .capturing, startMs := s.inputs.nowMs % 2 ^ s.cfg.tickBits,
            events := s.events ++ wakeEvents s.cfg } ∧
          ∀ i, bufRead i t = .error (.bufReadOutside i))

/-- 40_capture_session.md R104: EDGE, in every state: dropped while disarmed, no change when full, and otherwise one
record at index count, closing the session when it fills the buffer. Every other entry reads as before. -/
def Obligations.EdgeRecordsOneEdge : Prop :=
  ∀ (level : Bool) (s : State), s.cfg.capacity ≤ 255 →
    (s.armed = false → exec (.edge level) s = .next s) ∧
      (s.armed = true → s.cfg.capacity ≤ s.count.toNat → exec (.edge level) s = .next s) ∧
      (s.armed = true → s.count.toNat < s.cfg.capacity →
        ∃ t, exec (.edge level) s = .next t ∧ t.count.toNat = s.count.toNat + 1 ∧
          (∀ j, bufRead j t =
            if j = s.count.toNat then .ok { ts := s.inputs.ts % 2 ^ s.cfg.cntBits, lvl := level } else bufRead j s) ∧
          (s.count.toNat + 1 ≠ s.cfg.capacity →
            t = { s with
              buf := t.buf, count := t.count, lastTs := s.inputs.ts % 2 ^ s.cfg.cntBits, newEdge := true }) ∧
          (s.count.toNat + 1 = s.cfg.capacity →
            t = { s with
              buf := t.buf, count := t.count, lastTs := s.inputs.ts % 2 ^ s.cfg.cntBits, newEdge := true,
              armed := false, state := .ready, events := s.events ++ [.captureDisarm] }))

/-- 40_capture_session.md R105: SERVICE, in every state. Both differences are modular
and both comparisons strict, and the timeout is decided first. -/
def Obligations.ServiceDetectsTheEndOfTheSession : Prop :=
  ∀ s : State,
    (s.state ≠ .capturing → exec .service s = .next s) ∧
      (s.state = .capturing →
        (TimedOut s.cfg (s.inputs.nowMs % 2 ^ s.cfg.tickBits) s.startMs →
          exec .service s = .next (closed .idle s)) ∧
          (¬TimedOut s.cfg (s.inputs.nowMs % 2 ^ s.cfg.tickBits) s.startMs →
            (s.count = 0#8 → exec .service s = .next s) ∧
              (s.count ≠ 0#8 →
                (Silent s.cfg (s.inputs.nowCnt % 2 ^ s.cfg.cntBits) s.lastTs →
                  exec .service s = .next (closed .ready s)) ∧
                  (¬Silent s.cfg (s.inputs.nowCnt % 2 ^ s.cfg.cntBits) s.lastTs → exec .service s = .next s))))

/-- 40_capture_session.md R106: READ, in every state whose records it reads hold a value. It decodes once, moves to Idle
and leaves everything else. -/
def Obligations.ReadReportsTheOutcome : Prop :=
  ∀ s : State,
    (s.state = .capturing → exec .read s = .next { s with results := s.results ++ [busyWord] }) ∧
      (s.state = .idle → exec .read s = .next { s with results := s.results ++ [timedOutWord] }) ∧
      (s.state = .ready →
        ∀ rs : List EdgeRecord, rs.length = s.count.toNat → (∀ i (h : i < rs.length), bufRead i s = .ok rs[i]) →
          exec .read s = .next { s with state := .idle, results := s.results ++ [(decodeFrame s.cfg rs).word] })

/-- Every instruction answers a next state: INIT, START, SERVICE and EDGE in every state, and READ in every state whose
records hold a value where it reads them, as they do under the invariant (40_capture_session.md R101 to R106). -/
def Obligations.EveryInstructionCompletes : Prop :=
  ∀ (i : Instr) (s : State), (i = .read → s.state = .ready → ∀ j, j < s.count.toNat → ∃ r, bufRead j s = .ok r) →
    ∃ t, exec i s = .next t

/-- 70_reset_and_hazards.md R232: before INIT only START faults. -/
def Obligations.BeforeInitOnlyStartFaults : Prop :=
  ∀ s : State, Inv s → s.initDone = false →
    exec .read s = .next { s with results := s.results ++ [timedOutWord] } ∧ exec .service s = .next s ∧
      (∀ level, exec (.edge level) s = .next s) ∧
      exec .init s = .next { s with initDone := true, events := s.events ++ [.delayInit] } ∧
      exec .start s = .next { s with fault := some .startBeforeInit }

/-! ## Invariants and whole-machine rules -/

/-- The invariant holds after reset, under every configuration (10_state.md R33, R39). -/
def Obligations.InvariantHoldsAtReset : Prop :=
  ∀ c : Config, c.wf = true → Inv (State.resetWith c)

/-- Every step keeps the invariant, from every state that meets it (10_state.md R33). -/
def Obligations.EveryStepKeepsTheInvariant : Prop :=
  ∀ s t : State, Inv s → step s = .next t → Inv t

/-- 10_state.md R33: every state reachable from reset by the operation rules satisfies all seven items, for every
configuration and every list of arrivals. -/
def Obligations.ReachableStatesMeetTheSpecInvariants : Prop :=
  ∀ (c : Config) (l : List Request) (s : State), c.wf = true → Reaches { State.resetWith c with arrivals := l } s →
    (s.armed = true ↔ s.state = .capturing) ∧
      (s.count.toNat ≤ c.capacity ∧ (s.state = .capturing → s.count.toNat < c.capacity)) ∧
      (1 ≤ s.count.toNat → ∃ r, bufRead (s.count.toNat - 1) s = .ok r ∧ s.lastTs = r.ts) ∧
      (s.newEdge = true ↔ 1 ≤ s.count.toNat) ∧
      (s.state = .ready → ∀ t, step s = .next t →
        t.buf = s.buf ∧ t.count = s.count ∧
          (t.state = .ready ∨ (t.state = .idle ∧ ∃ r, s.arrivals = r :: t.arrivals ∧ Issues r .read))) ∧
      (s.armed = true → s.capPol = .both) ∧ s.lineMode = .released

/-- 20_memory.md R58: an operation that moves the session out of Capturing clears `armed` and emits CaptureDisarm in the
same step, and no EDGE is accepted afterwards. -/
def Obligations.CloseDisarmsInTheSameStep : Prop :=
  ∀ s t : State, step s = .next t → s.state = .capturing → t.state ≠ .capturing →
    t.armed = false ∧ t.events = s.events ++ [.captureDisarm] ∧ ∀ level, exec (.edge level) t = .next t

/-- 40_capture_session.md R108: a session ends in exactly one of three ways. -/
def Obligations.SessionEndsInOneOfThreeWays : Prop :=
  ∀ s t : State, Inv s → step s = .next t → s.state = .capturing → t.state ≠ .capturing →
    ∃ r, s.arrivals = r :: t.arrivals ∧
      (((∃ level, Issues r (.edge level)) ∧ s.count.toNat + 1 = s.cfg.capacity ∧ t.state = .ready) ∨
        (Issues r .service ∧ t.state = .ready ∧
          s.count ≠ 0#8 ∧ ¬TimedOut s.cfg (r.inputs.nowMs % 2 ^ s.cfg.tickBits) s.startMs ∧
            Silent s.cfg (r.inputs.nowCnt % 2 ^ s.cfg.cntBits) s.lastTs) ∨
        (Issues r .service ∧ t.state = .idle ∧ TimedOut s.cfg (r.inputs.nowMs % 2 ^ s.cfg.tickBits) s.startMs))

/-- 60_exceptions.md R202: the block never starts a session by itself: only a START from Idle after INIT does. -/
def Obligations.SessionBeginsOnlyByStart : Prop :=
  ∀ s t : State, step s = .next t → s.state ≠ .capturing → t.state = .capturing →
    s.state = .idle ∧ s.initDone = true ∧ ∃ r, s.arrivals = r :: t.arrivals ∧ Issues r .start

/-- 40_capture_session.md R107: every row of the complete transition table: the target state, the side effect's events
and field writes (and no other write), what the buffer then reads, and the result. -/
def Obligations.TransitionTableRows : Prop :=
  ∀ (i : Instr) (s : State), Inv s → s.initDone = true →
    ∃ t ws, exec i s = .next t ∧
      t = { tableFields s i t.buf with
        state := nextSession s i, events := s.events ++ tableEvents s i, results := s.results ++ ws } ∧
      (s.cfg.wf = true → TableBuffer s i t) ∧ TableResults s i ws

/-- 40_capture_session.md R109: every READ that does not give BUSY leaves Idle, BUSY leaves Capturing, and after a READ
that left Idle a START begins a new session. -/
def Obligations.RecoveryAfterReadIsUniform : Prop :=
  ∀ s t : State, exec .read s = .next t →
    ∃ w, t.results = s.results ++ [w] ∧
      (codeField w = 1#3 → t.state = .capturing) ∧
      (codeField w ≠ 1#3 → t.state = .idle ∧
        (t.initDone = true → ∃ u, exec .start t = .next u ∧ u.state = .capturing ∧ u.count = 0#8 ∧ u.armed = true))

/-- 20_memory.md R57: who writes which field. A START from Idle removes the old records from the model's list (log 9). -/
def Obligations.WritersOfEachField : Prop :=
  ∀ (i : Instr) (s t : State), exec i s = .next t →
    (t.buf ≠ s.buf → i = .start ∨ ∃ l, i = .edge l) ∧ (t.count ≠ s.count → i = .start ∨ ∃ l, i = .edge l) ∧
      (t.lastTs ≠ s.lastTs → ∃ l, i = .edge l) ∧ (t.newEdge ≠ s.newEdge → i = .start ∨ ∃ l, i = .edge l) ∧
      (t.state ≠ s.state → i = .start ∨ i = .service ∨ i = .read ∨ ∃ l, i = .edge l) ∧
      (t.armed ≠ s.armed → i = .start ∨ i = .service ∨ ∃ l, i = .edge l) ∧
      (t.startMs ≠ s.startMs → i = .start) ∧ (t.capPol ≠ s.capPol → i = .start) ∧
      (t.lineMode ≠ s.lineMode → i = .start) ∧ (t.initDone ≠ s.initDone → i = .init) ∧
      (t.fault ≠ s.fault → i = .start) ∧ t.cfg = s.cfg

/-- 60_exceptions.md R214: the output events, and which operation emits each. -/
def Obligations.EventsOfEachOperation : Prop :=
  ∀ (i : Instr) (s t : State), exec i s = .next t →
    ∃ es, t.events = s.events ++ es ∧
      (es = [] ∨ (i = .init ∧ s.initDone = false ∧ es = [.delayInit]) ∨
        (i = .start ∧ s.initDone = true ∧ s.state = .idle ∧ es = wakeEvents s.cfg) ∨
        (((i = .service ∧ s.state = .capturing ∧ (t.state = .idle ∨ t.state = .ready)) ∨
          ((∃ l, i = .edge l) ∧ s.armed = true ∧ s.count.toNat + 1 = s.cfg.capacity)) ∧ es = [.captureDisarm]))

/-- 10_state.md R28: each write of `armed` is reported to the timer: it rises with CaptureArm and falls with
CaptureDisarm. -/
def Obligations.ArmedFollowsTheReportedEvents : Prop :=
  ∀ (i : Instr) (s t : State) (es : List Event), Inv s → exec i s = .next t → t.events = s.events ++ es →
    (Event.captureArm ∈ es ↔ s.armed = false ∧ t.armed = true) ∧
      (Event.captureDisarm ∈ es ↔ s.armed = true ∧ t.armed = false)

/-- 00_scope.md R19: a run's observation only grows; one step gives at most one result word, and only a READ gives one,
with a CODE of 0 to 4 and zero reserved bits. -/
def Obligations.ObservationOnlyGrows : Prop :=
  ∀ s t : State, step s = .next t →
    ∃ es ws, t.events = s.events ++ es ∧ t.results = s.results ++ ws ∧
      (ws = [] ∨ ∃ r w, s.arrivals = r :: t.arrivals ∧ Issues r .read ∧ ws = [w] ∧ (codeField w).toNat ≤ 4 ∧
        w.extractLsb' 3 5 = 0#5 ∧ (codeField w ≠ 0#3 → tRawField w = 0#16 ∧ hRawField w = 0#16))

/-- 70_reset_and_hazards.md R230: no step resets the block: INIT's effect and a recorded fault stay, and a fault ends the
run. -/
def Obligations.NoStepResetsTheBlock : Prop :=
  ∀ s t : State, Reaches s t →
    (s.initDone = true → t.initDone = true) ∧ t.cfg = s.cfg ∧ (s.fault ≠ none → t = s)

/-- 20_memory.md R55: INIT is idempotent; two SERVICEs with the same inputs are as one; READ in Idle or Capturing changes
no state and repeats its word; a READ in Ready is not repeated. -/
def Obligations.SideEffectsAndIdempotency : Prop :=
  ∀ s t : State,
    (exec .init s = .next t → exec .init t = .next t) ∧
      (exec .service s = .next t → exec .service t = .next t) ∧
      (exec .read s = .next t → s.state ≠ .ready →
        ∃ w, t = { s with results := s.results ++ [w] } ∧
          exec .read t = .next { t with results := t.results ++ [w] }) ∧
      (exec .read s = .next t → s.state = .ready →
        exec .read t = .next { t with results := t.results ++ [timedOutWord] })

/-- 70_reset_and_hazards.md R238: START in Ready starts nothing, and the READ after it returns the old result. -/
def Obligations.StartInReadyKeepsTheResult : Prop :=
  ∀ s t : State, s.state = .ready → s.initDone = true → exec .start s = .next t → exec .read t = exec .read s

/-! ## The order between the ports -/

/-- 60_exceptions.md R207, first item: an EDGE that fills the buffer against a SERVICE that times out, in both orders. -/
def Obligations.FillAgainstTimeoutRace : Prop :=
  ∀ (s : State) (e v : Request) (level : Bool),
    Inv s → s.cfg.wf = true → s.fault = none → s.state = .capturing → s.count.toNat + 1 = s.cfg.capacity →
      Issues e (.edge level) → Issues v .service →
      TimedOut s.cfg (v.inputs.nowMs % 2 ^ s.cfg.tickBits) s.startMs →
        (∃ t, run [e, v] s = .next t ∧ t.state = .ready ∧ t.count.toNat = s.count.toNat + 1 ∧
          bufRead s.count.toNat t = .ok { ts := e.inputs.ts % 2 ^ s.cfg.cntBits, lvl := level } ∧
          t.events = s.events ++ [.captureDisarm]) ∧
        (∃ t, run [v, e] s = .next t ∧ t.state = .idle ∧ t.count = s.count ∧ t.buf = s.buf ∧
          t.events = s.events ++ [.captureDisarm])

/-- 60_exceptions.md R207, second item: an EDGE that does not fill the buffer against a SERVICE whose silence check would
fire. If EDGE goes first the
check compares against the new edge; if SERVICE goes first the session is Ready without that edge. -/
def Obligations.EdgeAgainstSilenceRace : Prop :=
  ∀ (s : State) (e v : Request) (level : Bool),
    Inv s → s.cfg.wf = true → s.fault = none → s.state = .capturing → s.count ≠ 0#8 →
      s.count.toNat + 1 < s.cfg.capacity → Issues e (.edge level) → Issues v .service →
      ¬TimedOut s.cfg (v.inputs.nowMs % 2 ^ s.cfg.tickBits) s.startMs →
      Silent s.cfg (v.inputs.nowCnt % 2 ^ s.cfg.cntBits) s.lastTs →
        (∃ t, run [v, e] s = .next t ∧ t.state = .ready ∧ t.count = s.count ∧ t.lastTs = s.lastTs) ∧
        (∃ t, run [e, v] s = .next t ∧ t.count.toNat = s.count.toNat + 1 ∧
          t.lastTs = e.inputs.ts % 2 ^ s.cfg.cntBits ∧
          (t.state = .ready ↔
            Silent s.cfg (v.inputs.nowCnt % 2 ^ s.cfg.cntBits) (e.inputs.ts % 2 ^ s.cfg.cntBits)) ∧
          (t.state = .capturing ↔
            ¬Silent s.cfg (v.inputs.nowCnt % 2 ^ s.cfg.cntBits) (e.inputs.ts % 2 ^ s.cfg.cntBits)))

/-- 20_memory.md R56, 40_capture_session.md R108: any interleaving of foreground operations other than SERVICE with
edges that leave room records exactly the delivered edges, in order, answers BUSY to every READ, and never ends the
session. -/
def Obligations.AnyInterleavingRecordsTheEdges : Prop :=
  ∀ (s : State) (l cap : List Request),
    Inv s → s.cfg.wf = true → s.fault = none → s.state = .capturing → LegalArrivals l →
      (∀ r ∈ l, ¬Issues r .service) → portArrivals .capture l = cap →
      s.count.toNat + cap.length < s.cfg.capacity →
        ∃ t, run l s = .next t ∧ t.state = .capturing ∧ t.startMs = s.startMs ∧
          t.count.toNat = s.count.toNat + cap.length ∧
          (∀ j, j < s.count.toNat → bufRead j t = bufRead j s) ∧
          (∀ j (h : j < cap.length), bufRead (s.count.toNat + j) t =
            .ok { ts := cap[j].inputs.ts % 2 ^ s.cfg.cntBits, lvl := cap[j].word.getLsbD 3 }) ∧
          t.results = s.results ++ List.replicate (l.countP fun r => decide (r.word = 0x03#8)) busyWord ∧
          t.events = s.events

/-- 60_exceptions.md R210, R215: under the capture agent's contract, what the buffer holds is an in-order subsequence of
the line's transitions. -/
def Obligations.BufferIsASubsequenceOfTheLine : Prop :=
  ∀ (s : State) (l : List Request) (line : List EdgeRecord),
    Inv s → s.cfg.wf = true → s.fault = none → s.state = .capturing → s.count = 0#8 → LegalArrivals l →
      (∀ r ∈ l, ¬Issues r .service) → DeliversFrom line (portArrivals .capture l) →
      (∀ r ∈ line, r.ts < 2 ^ s.cfg.cntBits) → (portArrivals .capture l).length < s.cfg.capacity →
        ∃ t rs, run l s = .next t ∧ bufReadAll t.count.toNat t = .ok rs ∧ List.Sublist rs line

/-- 60_exceptions.md R204, R215: an EDGE taken while armed, as the contract has it where an edge counts as delivered at the
taking (the model's choice, log 25), is recorded. -/
def Obligations.DeliveredEdgeIsRecorded : Prop :=
  ∀ (s t : State) (r : Request) (rest : List Request) (level : Bool),
    Inv s → EdgesWhileArmed 1 s → s.arrivals = r :: rest → Issues r (.edge level) → step s = .next t →
      t.count.toNat = s.count.toNat + 1 ∧
        bufRead s.count.toNat t = .ok { ts := r.inputs.ts % 2 ^ s.cfg.cntBits, lvl := level }

/-- 70_reset_and_hazards.md R235, 60_exceptions.md R215: under the environment contract a measured interval (a pulse width,
the silence gap, the elapsed ticks) is the true one modulo its period, and the true one itself while it is below the
period. -/
def Obligations.MeasuredIntervalsUnderTheContract : Prop :=
  ∀ (c : Config) (x y : Request) (a b : Nat),
    (∀ l m : Bool, Issues x (.edge l) → Issues y (.edge m) → CountsSinceReset c [a, b] [x, y] →
      a ≤ b ∧ pulseWidth c x.inputs.ts y.inputs.ts = (b - a) % 2 ^ c.cntBits ∧
        (b - a < 2 ^ c.cntBits → pulseWidth c x.inputs.ts y.inputs.ts = b - a)) ∧
      (∀ l : Bool, Issues x (.edge l) → Issues y .service → CountsSinceReset c [a, b] [x, y] →
        a ≤ b ∧ gap c y.inputs.nowCnt x.inputs.ts = (b - a) % 2 ^ c.cntBits ∧
          (b - a < 2 ^ c.cntBits → gap c y.inputs.nowCnt x.inputs.ts = b - a)) ∧
      (Issues x .start → Issues y .service → MonotonicTick c [a, b] [x, y] →
        a ≤ b ∧ elapsed c y.inputs.nowMs x.inputs.nowMs = (b - a) % 2 ^ c.tickBits ∧
          (b - a < 2 ^ c.tickBits → elapsed c y.inputs.nowMs x.inputs.nowMs = b - a))

/-! ## The frame decoder -/

/-- 41_frame_decoder.md R152: the widths are, in order, those of every rising record that has a falling record after it,
each paired with the first one, cut at MAX_PULSES. -/
def Obligations.PulsesPairEveryRisingRecord : Prop :=
  ∀ (c : Config) (rs : List EdgeRecord),
    pulses c rs = ((List.range rs.length).filterMap (pulseAt c rs)).take c.maxPulses

/-- 41_frame_decoder.md R153: on a list whose levels alternate, with an optional leading falling and an optional trailing
rising record, there is one width per pair, and both pairing readings agree; a frame has this shape and 82 records. -/
def Obligations.AlternatingListsGiveOneWidthPerPair : Prop :=
  ∀ (c : Config) (ps : List (Nat × Nat)) (lead trail rs : List EdgeRecord),
    (lead = [] ∨ ∃ x, lead = [fall x]) → (trail = [] ∨ ∃ y, trail = [rise y]) →
      rs = lead ++ (ps.map fun p => [rise p.1, fall p.2]).flatten ++ trail →
        pulses c rs = (ps.map fun p => pulseWidth c p.1 p.2).take c.maxPulses ∧
          pulses c rs = (pairResuming c none rs).take c.maxPulses

/-- 41_frame_decoder.md R154: the cap, and that with MAX_PULSES of at least 41 its value never changes a result. -/
def Obligations.CollectionCapNeverChangesAResult : Prop :=
  ∀ (c : Config) (m : Nat) (rs : List EdgeRecord),
    (pulses c rs).length ≤ c.maxPulses ∧
      (41 ≤ c.maxPulses → 41 ≤ m → decodeFrame { c with maxPulses := m } rs = decodeFrame c rs)

/-- 41_frame_decoder.md R155, R163: fewer than 41 widths is FRAMING_ERROR whatever the records hold, and it wins over the
checksum; 41 or more never is. -/
def Obligations.FewerThanFortyOneWidthsIsFramingError : Prop :=
  ∀ (c : Config) (rs : List EdgeRecord),
    ((pulses c rs).length < 41 → decodeFrame c rs = { code := .framingError, tRaw := 0#16, hRaw := 0#16 } ∧
      (decodeFrame c rs).word = framingWord) ∧
      (41 ≤ (pulses c rs).length → (decodeFrame c rs).code = .ok ∨
        ((decodeFrame c rs).code = .checksumMismatch ∧ (decodeFrame c rs).word = checksumWord))

/-- 41_frame_decoder.md R156, R157: the ack is discarded, the next 40 widths are classified by a strict comparison, the
rest are ignored. -/
def Obligations.DataPulsesAreClassifiedStrictly : Prop :=
  ∀ (c : Config) (ws : List Nat), 41 ≤ ws.length →
    (frameBits c ws).length = 40 ∧
      ∀ k (h : k + 1 < ws.length), k < 40 → (frameBits c ws)[k]? = some (decide (c.bitThreshold < ws[k + 1]))

/-- 41_frame_decoder.md R158, 20_memory.md R54: data bit k is bit 7 - (k mod 8) of byte floor(k / 8). -/
def Obligations.BitsArePackedMostSignificantFirst : Prop :=
  ∀ bits : List Bool, bits.length = 40 →
    ∀ k (h : k < bits.length), ((assembleFrame bits).byte (k / 8)).getLsbD (7 - k % 8) = bits[k]

/-- 41_frame_decoder.md R159: the comparison, that a single flipped bit of a valid frame is always found, and that two
changes can cancel. -/
def Obligations.ChecksumFindsEverySingleFlip : Prop :=
  (∀ f : Frame,
      ((f.b0.toNat + f.b1.toNat + f.b2.toNat + f.b3.toNat) % 256 = f.b4.toNat → (frameResult f).code = .ok) ∧
        ((f.b0.toNat + f.b1.toNat + f.b2.toNat + f.b3.toNat) % 256 ≠ f.b4.toNat →
          (frameResult f).word = checksumWord)) ∧
    (∀ (f g : Frame) (k : Nat), k < 40 → (∀ j, j < 40 → g.bit j = (f.bit j != decide (j = k))) →
      (frameResult f).code = .ok → (frameResult g).word = checksumWord) ∧
    ∃ f g : Frame, g.b0.toNat = f.b0.toNat + 1 ∧ g.b1.toNat + 1 = f.b1.toNat ∧ g.b2 = f.b2 ∧ g.b3 = f.b3 ∧
      g.b4 = f.b4 ∧ (frameResult f).code = .ok ∧ (frameResult g).code = .ok

/-- 41_frame_decoder.md R160, R161, 20_memory.md R54: an OK result carries the two big-endian fields unchanged. -/
def Obligations.FieldsAreBigEndianAndUnchanged : Prop :=
  ∀ f : Frame, (frameResult f).code = .ok →
    (frameResult f).hRaw.toNat = f.b0.toNat * 256 + f.b1.toNat ∧
      humidityTenths (frameResult f).hRaw = f.b0.toNat * 256 + f.b1.toNat ∧
      (frameResult f).tRaw.toNat = f.b2.toNat * 256 + f.b3.toNat ∧ hRawField (frameResult f).word = (frameResult f).hRaw ∧
      tRawField (frameResult f).word = (frameResult f).tRaw

/-- 30_encoding.md R76, R77: the layout of the result word, the numbers of the codes, and that READ alone returns a word,
one a time, with data only under OK. -/
def Obligations.ResultWordLayout : Prop :=
  (∀ r : Result, codeField r.word = r.code.bits ∧ r.word.extractLsb' 3 5 = 0#5 ∧ tRawField r.word = r.tRaw ∧
      hRawField r.word = r.hRaw) ∧
    ResultCode.bits .ok = 0#3 ∧ ResultCode.bits .busy = 1#3 ∧ ResultCode.bits .timedOut = 2#3 ∧
    ResultCode.bits .checksumMismatch = 3#3 ∧ ResultCode.bits .framingError = 4#3 ∧
    ResultCode.ofBits 5#3 = none ∧ ResultCode.ofBits 6#3 = none ∧ ResultCode.ofBits 7#3 = none ∧
    (∀ s t : State, exec .read s = .next t →
      ∃ r : Result, t.results = s.results ++ [r.word] ∧ (r.code ≠ .ok → r.tRaw = 0#16 ∧ r.hRaw = 0#16)) ∧
    ∀ (i : Instr) (s t : State), i ≠ .read → exec i s = .next t → t.results = s.results

/-- 30_encoding.md R81: the temperature is sign-magnitude, not two's complement; 0x8000 keeps its sign, and the block
reports it as it is. -/
def Obligations.TemperatureIsSignMagnitude : Prop :=
  (∀ t : DataField,
    t.toNat = (tSign t).toNat * 32768 + (tMag t).toNat ∧ (tMag t).toNat ≤ 32767 ∧
      (tSign t = false → temperatureTenths t = (t.toNat : Int)) ∧
      (tSign t = true → temperatureTenths t = -((t.toNat : Int) - 32768)) ∧
      tSign 0x8000#16 = true ∧ tMag 0x8000#16 = 0#15) ∧
    ∀ f : Frame, (frameResult f).code = .ok → f.b2 = 0x80#8 → f.b3 = 0x00#8 →
      tRawField (frameResult f).word = 0x8000#16

/-- 41_frame_decoder.md R162: the float view is FLOAT_RENDER of the tenths, the sign applied after scaling, for every
FLOAT_RENDER. -/
def Obligations.FloatSignIsAppliedAfterScaling : Prop :=
  ∀ t h : DataField, humidityFloat h = Config.floatRender h.toNat ∧
    (tSign t = false → temperatureFloat t = Config.floatRender t.toNat) ∧
    (tSign t = true → temperatureFloat t = Config.floatNegate (Config.floatRender (t.toNat - 32768)))

/-- 41_frame_decoder.md R165: the result depends on the first 41 widths only, without the ack's; records after the 41st
pulse's change nothing, nor does moving every timestamp by the same amount. -/
def Obligations.ResultDependsOnTheFirstFortyOneWidths : Prop :=
  ∀ (c : Config) (rs xs : List EdgeRecord),
    (41 ≤ (pulses c rs).length → 41 ≤ (pulses c xs).length →
      ((pulses c rs).take 41).drop 1 = ((pulses c xs).take 41).drop 1 → decodeFrame c rs = decodeFrame c xs) ∧
      (41 ≤ (pulses c rs).length → decodeFrame c (rs ++ xs) = decodeFrame c rs) ∧
      ∀ d, decodeFrame c (rs.map fun r => { r with ts := addMod c.cntBits r.ts d }) = decodeFrame c rs

/-- 41_frame_decoder.md R152, R155: no list of fewer than 42 records decodes, and 42 can, because rising records may share
one falling record (log 13); an alternating list needs 82. -/
def Obligations.FewestRecordsThatDecode : Prop :=
  (∀ (c : Config) (rs : List EdgeRecord), rs.length < 42 → decodeFrame c rs = Result.bare .framingError) ∧
    (∃ rs : List EdgeRecord, rs.length = 42 ∧ (decodeFrame Config.vector rs).code = .ok) ∧
    ∀ (c : Config) (ps : List (Nat × Nat)),
      (decodeFrame c (ps.map fun p => [rise p.1, fall p.2]).flatten).code ≠ .framingError → 41 ≤ ps.length

/-- 41_frame_decoder.md R164 on the frame of 30_encoding.md R85: the 82 records of a FRAME decode to the result of its
own five bytes, from any start, across a counter wrap too; a FRAMEC decodes to OK with its fields. -/
def Obligations.FrameDecodesToItsOwnBytes : Prop :=
  ∀ (c : Config) (t0 : Nat), c.wf = true → 28 ≤ c.bitThreshold → c.bitThreshold < 70 → 70 < 2 ^ c.cntBits →
    (∀ f : Frame, (frameRecords c t0 f).length = 82 ∧ decodeFrame c (frameRecords c t0 f) = frameResult f) ∧
      ∀ b0 b1 b2 b3 : Byte,
        decodeFrame c (frameRecords c t0 (checkedFrame b0 b1 b2 b3)) =
          { code := .ok, tRaw := b2 ++ b3, hRaw := b0 ++ b1 }

/-! ## Runs -/

/-- 70_reset_and_hazards.md R231, item 4, and R234: a whole transaction from reset, for every frame, configuration and
clock: INIT, START, the frame's 82 edges, a SERVICE that sees the silence in time, and a READ that reports the frame. -/
def Obligations.WholeTransactionReportsTheFrame : Prop :=
  ∀ (c : Config) (t0 ms0 ms1 cnt : Nat) (f : Frame) (last : EdgeRecord),
    c.wf = true → 82 ≤ c.capacity → 28 ≤ c.bitThreshold → c.bitThreshold < 70 → 70 < 2 ^ c.cntBits →
      t0 < 2 ^ c.cntBits → (frameRecords c t0 f).getLast? = some last →
      ¬TimedOut c (ms1 % 2 ^ c.tickBits) (ms0 % 2 ^ c.tickBits) → Silent c (cnt % 2 ^ c.cntBits) last.ts →
        ∃ t, run ([Request.make .init 0 0 0, Request.make .start ms0 0 0] ++
              (frameRecords c t0 f).map edgeRequest ++ [Request.make .service ms1 cnt 0, Request.make .read 0 0 0])
            (State.resetWith c) = .next t ∧
          t.results = [(frameResult f).word] ∧ t.state = .idle ∧ t.armed = false ∧ t.count = 82#8 ∧ t.fault = none ∧
          t.events = [.delayInit] ++ wakeEvents c ++ [.captureDisarm]

/-- 70_reset_and_hazards.md R234, item 2: a session seen too late is aborted, and READ gives TIMED_OUT whatever the buffer
holds. -/
def Obligations.LateServiceLosesTheFrame : Prop :=
  ∀ (s : State) (v d : Request),
    s.cfg.wf = true → s.fault = none → s.state = .capturing → Issues v .service → Issues d .read →
      TimedOut s.cfg (v.inputs.nowMs % 2 ^ s.cfg.tickBits) s.startMs →
        ∃ t, run [v, d] s = .next t ∧ t.state = .idle ∧ t.results = s.results ++ [timedOutWord] ∧ t.buf = s.buf ∧
          t.count = s.count

/-- 70_reset_and_hazards.md R240: a session that silence ends with too few records gives FRAMING_ERROR, and the block is
Idle again. -/
def Obligations.StrayEdgeGivesFramingError : Prop :=
  ∀ (s : State) (v d : Request),
    Inv s → s.cfg.wf = true → s.fault = none → s.state = .capturing → s.count ≠ 0#8 → s.count.toNat < 42 →
      Issues v .service → Issues d .read → ¬TimedOut s.cfg (v.inputs.nowMs % 2 ^ s.cfg.tickBits) s.startMs →
      Silent s.cfg (v.inputs.nowCnt % 2 ^ s.cfg.cntBits) s.lastTs →
        ∃ t, run [v, d] s = .next t ∧ t.state = .idle ∧ t.results = s.results ++ [framingWord]

/-- 60_exceptions.md R216: blocks share nothing: a step of one leaves every other, and depends on its own state only (the
list of blocks is the model's, log 17). -/
def Obligations.BlocksShareNothing : Prop :=
  ∀ (blocks blocks' : List State) (k : Nat), stepBlock k blocks = some (.next blocks') →
    blocks'.length = blocks.length ∧ (∀ j, j ≠ k → blocks'[j]? = blocks[j]?) ∧
      ∃ s t, blocks[k]? = some s ∧ step s = .next t ∧ blocks'[k]? = some t

/-- 60_exceptions.md R206, R207: an EDGE that fills the buffer against a SERVICE whose silence check would fire: Ready in
both orders, with the edge or without it. -/
def Obligations.FillAgainstSilenceRace : Prop :=
  ∀ (s : State) (e v : Request) (level : Bool),
    Inv s → s.cfg.wf = true → s.fault = none → s.state = .capturing → s.count ≠ 0#8 →
      s.count.toNat + 1 = s.cfg.capacity → Issues e (.edge level) → Issues v .service →
      ¬TimedOut s.cfg (v.inputs.nowMs % 2 ^ s.cfg.tickBits) s.startMs →
      Silent s.cfg (v.inputs.nowCnt % 2 ^ s.cfg.cntBits) s.lastTs →
        (∃ t, run [e, v] s = .next t ∧ t.state = .ready ∧ t.count.toNat = s.count.toNat + 1 ∧
          bufRead s.count.toNat t = .ok { ts := e.inputs.ts % 2 ^ s.cfg.cntBits, lvl := level } ∧
          t.events = s.events ++ [.captureDisarm]) ∧
        (∃ t, run [v, e] s = .next t ∧ t.state = .ready ∧ t.count = s.count ∧ t.buf = s.buf ∧ t.lastTs = s.lastTs ∧
          t.events = s.events ++ [.captureDisarm])

/-- 60_exceptions.md R215, 40_capture_session.md R108: where the foreground keeps its duty to issue SERVICE while Capturing
and the timeout is due whenever it does, the session ends, whatever else arrives and in whatever order. -/
def Obligations.PollingEndsTheSession : Prop :=
  ∀ (s : State) (l : List Request) (n k : Nat),
    Inv s → s.cfg.wf = true → s.fault = none → s.state = .capturing → LegalArrivals l →
      (∀ r ∈ l, ¬Issues r .start) → KeepsPolling n (k + 1) { s with arrivals := l } →
      (∀ r ∈ l, Issues r .service → TimedOut s.cfg (r.inputs.nowMs % 2 ^ s.cfg.tickBits) s.startMs) →
        ∃ t, run l s = .next t ∧ t.fault = none ∧ t.state ≠ .capturing ∧ t.armed = false
end

