-- ==== Sys2Proof/Laws/Arithmetic.lean ====
section
/-! SUPPORT. Modular subtraction and addition (00_scope.md R12). -/

namespace Sys2Proof.Machine

theorem subMod_lt (n a b : Nat) : subMod n a b < 2 ^ n := by
  have h : 0 < ((2 ^ n : Nat) : Int) := by positivity
  have := Int.emod_lt_of_pos ((a : Int) - b) h
  have := Int.emod_nonneg ((a : Int) - b) (ne_of_gt h)
  unfold subMod
  omega

theorem subMod_cast (n a b : Nat) : ((subMod n a b : Nat) : Int) = ((a : Int) - b) % ((2 ^ n : Nat) : Int) := by
  have h : ((2 ^ n : Nat) : Int) ≠ 0 := by positivity
  have := Int.emod_nonneg ((a : Int) - b) h
  unfold subMod
  omega

/-- The difference depends on its operands' residues only. -/
theorem subMod_mod (n a b : Nat) : subMod n (a % 2 ^ n) (b % 2 ^ n) = subMod n a b := by
  unfold subMod
  congr 1
  push_cast
  rw [Int.sub_emod, Int.emod_emod, Int.emod_emod, ← Int.sub_emod]

/-- A true interval of `d` units reads as `d mod 2^n`. -/
theorem subMod_add_left (n a d : Nat) : subMod n (a + d) a = d % 2 ^ n := by
  unfold subMod
  have : ((a + d : Nat) : Int) - (a : Int) = (d : Int) := by omega
  rw [this, ← Int.natCast_mod]
  rfl

theorem subMod_self (n a : Nat) : subMod n a a = 0 := by simp [subMod]

theorem subMod_addMod (n a d : Nat) : subMod n (addMod n a d) a = d % 2 ^ n := by
  rw [← subMod_mod, addMod, Nat.mod_mod, subMod_mod, subMod_add_left]

/-- Moving both ends of an interval by the same amount leaves its width. -/
theorem subMod_shift (n a b d : Nat) : subMod n (addMod n a d) (addMod n b d) = subMod n a b := by
  rw [addMod, addMod, subMod_mod]
  unfold subMod
  congr 2
  omega

theorem addMod_lt (n a b : Nat) : addMod n a b < 2 ^ n := Nat.mod_lt _ (by positivity)

theorem addMod_assoc (n a b d : Nat) : addMod n (addMod n a b) d = addMod n a (b + d) := by
  simp [addMod, Nat.add_assoc]

end Sys2Proof.Machine
end

