-- ==== Sys2Proof/Laws/Memory.lean ====
section
/-! SUPPORT. The Edge Record buffer as canonical data: what a store does to every entry, and that it keeps the canonical
form. -/

namespace Sys2Proof.Machine

@[simp] theorem Memory.lookup_nil (i : Nat) : Memory.lookup i [] = none := rfl

theorem Memory.lookup_cons (i j : Nat) (r : EdgeRecord) (m : Memory) :
    Memory.lookup i ((j, r) :: m) = if i = j then some r else Memory.lookup i m := rfl

/-- A read after a store: the stored record at its index, the old entry everywhere else. -/
theorem Memory.lookup_store (i j : Nat) (r : EdgeRecord) (m : Memory) :
    Memory.lookup j (Memory.store i r m) = if j = i then some r else Memory.lookup j m := by
  induction m with
  | nil => rfl
  | cons e m ih =>
    obtain ⟨k, v⟩ := e
    unfold Memory.store
    split
    · rfl
    · split
      · subst i
        simp only [Memory.lookup_cons]
        split <;> rfl
      · simp only [Memory.lookup_cons, ih]
        split <;> split <;> first | rfl | omega

theorem Memory.wf_tail {e : Nat × EdgeRecord} {m : Memory} (h : Memory.wf (e :: m) = true) : Memory.wf m = true := by
  cases m with
  | nil => rfl
  | cons e' m => simp only [Memory.wf, Bool.and_eq_true] at h; exact h.2

theorem Memory.wf_cons_iff (i : Nat) (r : EdgeRecord) (m : Memory) :
    Memory.wf ((i, r) :: m) = true ↔ (∀ e ∈ m.head?, i < e.1) ∧ Memory.wf m = true := by
  cases m with
  | nil => simp [Memory.wf]
  | cons e m => obtain ⟨j, v⟩ := e; simp [Memory.wf]

theorem Memory.head_store (i : Nat) (r : EdgeRecord) (m : Memory) :
    ∀ e ∈ (Memory.store i r m).head?, e.1 = i ∨ ∃ e' ∈ m.head?, e.1 = e'.1 := by
  cases m with
  | nil => simp [Memory.store]
  | cons e m =>
    obtain ⟨j, v⟩ := e
    unfold Memory.store
    split
    · simp
    · split <;> simp

/-- A store keeps the canonical form. -/
theorem Memory.wf_store (i : Nat) (r : EdgeRecord) {m : Memory} (h : Memory.wf m = true) :
    Memory.wf (Memory.store i r m) = true := by
  induction m with
  | nil => rfl
  | cons e m ih =>
    obtain ⟨j, v⟩ := e
    have ht := Memory.wf_tail h
    rw [Memory.wf_cons_iff] at h
    unfold Memory.store
    split
    · next hij => rw [Memory.wf_cons_iff]; exact ⟨by simpa using hij, (Memory.wf_cons_iff j v m).2 h⟩
    · split
      · next hij => subst hij; exact (Memory.wf_cons_iff i r m).2 h
      · next h1 h2 =>
        rw [Memory.wf_cons_iff]
        refine ⟨fun e he => ?_, ih ht⟩
        rcases Memory.head_store i r m e he with h3 | ⟨e', he', h3⟩
        · omega
        · rw [h3]; exact h.1 e' he'

/-- Every entry a canonical buffer lists is found where it is listed. -/
theorem Memory.lookup_eq_some_iff {m : Memory} (h : Memory.wf m = true) (i : Nat) (r : EdgeRecord) :
    Memory.lookup i m = some r ↔ (i, r) ∈ m := by
  have below : ∀ (m : Memory) (j : Nat) (v : EdgeRecord), Memory.wf ((j, v) :: m) = true → ∀ e ∈ m, j < e.1 := by
    intro m
    induction m with
    | nil => simp
    | cons e m ih =>
      obtain ⟨k, w⟩ := e
      intro j v hw e he
      rw [Memory.wf_cons_iff] at hw
      have hjk : j < k := hw.1 (k, w) (by simp)
      rcases List.mem_cons.1 he with rfl | he
      · exact hjk
      · exact Nat.lt_trans hjk (ih k w hw.2 e he)
  induction m with
  | nil => simp
  | cons e m ih =>
    obtain ⟨j, v⟩ := e
    rw [Memory.lookup_cons, List.mem_cons]
    split
    · next hij =>
      subst hij
      constructor
      · rintro h1; left; rw [Option.some.inj h1]
      · rintro (h1 | h1)
        · rw [(Prod.mk.inj h1).2]
        · exact absurd (below m i v h _ h1) (lt_irrefl _)
    · next hij =>
      refine (ih (Memory.wf_tail h)).trans ?_
      constructor
      · exact Or.inr
      · rintro (h1 | h1)
        · exact absurd (Prod.mk.inj h1).1 hij
        · exact h1

end Sys2Proof.Machine
end

