-- ==== Sys2Proof/Laws/State.lean ====
section
/-! SUPPORT. For every shared update, what each field of the new state is. -/

namespace Sys2Proof.Machine

variable (s : State)

/-! `emit`. -/
@[simp] theorem emit_state (es : List Event) : (emit es s).state = s.state := rfl
@[simp] theorem emit_buf (es : List Event) : (emit es s).buf = s.buf := rfl
@[simp] theorem emit_count (es : List Event) : (emit es s).count = s.count := rfl
@[simp] theorem emit_lastTs (es : List Event) : (emit es s).lastTs = s.lastTs := rfl
@[simp] theorem emit_newEdge (es : List Event) : (emit es s).newEdge = s.newEdge := rfl
@[simp] theorem emit_startMs (es : List Event) : (emit es s).startMs = s.startMs := rfl
@[simp] theorem emit_armed (es : List Event) : (emit es s).armed = s.armed := rfl
@[simp] theorem emit_capPol (es : List Event) : (emit es s).capPol = s.capPol := rfl
@[simp] theorem emit_lineMode (es : List Event) : (emit es s).lineMode = s.lineMode := rfl
@[simp] theorem emit_initDone (es : List Event) : (emit es s).initDone = s.initDone := rfl
@[simp] theorem emit_fault (es : List Event) : (emit es s).fault = s.fault := rfl
@[simp] theorem emit_cfg (es : List Event) : (emit es s).cfg = s.cfg := rfl
@[simp] theorem emit_arrivals (es : List Event) : (emit es s).arrivals = s.arrivals := rfl
@[simp] theorem emit_inputs (es : List Event) : (emit es s).inputs = s.inputs := rfl
@[simp] theorem emit_events (es : List Event) : (emit es s).events = s.events ++ es := rfl
@[simp] theorem emit_results (es : List Event) : (emit es s).results = s.results := rfl

/-! `respond`. -/
@[simp] theorem respond_state (w : ResultWord) : (respond w s).state = s.state := rfl
@[simp] theorem respond_buf (w : ResultWord) : (respond w s).buf = s.buf := rfl
@[simp] theorem respond_count (w : ResultWord) : (respond w s).count = s.count := rfl
@[simp] theorem respond_lastTs (w : ResultWord) : (respond w s).lastTs = s.lastTs := rfl
@[simp] theorem respond_newEdge (w : ResultWord) : (respond w s).newEdge = s.newEdge := rfl
@[simp] theorem respond_startMs (w : ResultWord) : (respond w s).startMs = s.startMs := rfl
@[simp] theorem respond_armed (w : ResultWord) : (respond w s).armed = s.armed := rfl
@[simp] theorem respond_capPol (w : ResultWord) : (respond w s).capPol = s.capPol := rfl
@[simp] theorem respond_lineMode (w : ResultWord) : (respond w s).lineMode = s.lineMode := rfl
@[simp] theorem respond_initDone (w : ResultWord) : (respond w s).initDone = s.initDone := rfl
@[simp] theorem respond_fault (w : ResultWord) : (respond w s).fault = s.fault := rfl
@[simp] theorem respond_cfg (w : ResultWord) : (respond w s).cfg = s.cfg := rfl
@[simp] theorem respond_arrivals (w : ResultWord) : (respond w s).arrivals = s.arrivals := rfl
@[simp] theorem respond_inputs (w : ResultWord) : (respond w s).inputs = s.inputs := rfl
@[simp] theorem respond_events (w : ResultWord) : (respond w s).events = s.events := rfl
@[simp] theorem respond_results (w : ResultWord) : (respond w s).results = s.results ++ [w] := rfl

/-! `markInitDone`. -/
@[simp] theorem markInitDone_state : (markInitDone s).state = s.state := rfl
@[simp] theorem markInitDone_buf : (markInitDone s).buf = s.buf := rfl
@[simp] theorem markInitDone_count : (markInitDone s).count = s.count := rfl
@[simp] theorem markInitDone_lastTs : (markInitDone s).lastTs = s.lastTs := rfl
@[simp] theorem markInitDone_newEdge : (markInitDone s).newEdge = s.newEdge := rfl
@[simp] theorem markInitDone_startMs : (markInitDone s).startMs = s.startMs := rfl
@[simp] theorem markInitDone_armed : (markInitDone s).armed = s.armed := rfl
@[simp] theorem markInitDone_capPol : (markInitDone s).capPol = s.capPol := rfl
@[simp] theorem markInitDone_lineMode : (markInitDone s).lineMode = s.lineMode := rfl
@[simp] theorem markInitDone_initDone : (markInitDone s).initDone = true := rfl
@[simp] theorem markInitDone_fault : (markInitDone s).fault = s.fault := rfl
@[simp] theorem markInitDone_cfg : (markInitDone s).cfg = s.cfg := rfl
@[simp] theorem markInitDone_arrivals : (markInitDone s).arrivals = s.arrivals := rfl
@[simp] theorem markInitDone_inputs : (markInitDone s).inputs = s.inputs := rfl
@[simp] theorem markInitDone_events : (markInitDone s).events = s.events := rfl
@[simp] theorem markInitDone_results : (markInitDone s).results = s.results := rfl

/-! `openSession`. -/
@[simp] theorem openSession_state (v : TickValue) : (openSession v s).state = .capturing := rfl
@[simp] theorem openSession_buf (v : TickValue) : (openSession v s).buf = [] := rfl
@[simp] theorem openSession_count (v : TickValue) : (openSession v s).count = 0#8 := rfl
@[simp] theorem openSession_lastTs (v : TickValue) : (openSession v s).lastTs = s.lastTs := rfl
@[simp] theorem openSession_newEdge (v : TickValue) : (openSession v s).newEdge = false := rfl
@[simp] theorem openSession_startMs (v : TickValue) : (openSession v s).startMs = v := rfl
@[simp] theorem openSession_armed (v : TickValue) : (openSession v s).armed = true := rfl
@[simp] theorem openSession_capPol (v : TickValue) : (openSession v s).capPol = .both := rfl
@[simp] theorem openSession_lineMode (v : TickValue) : (openSession v s).lineMode = .released := rfl
@[simp] theorem openSession_initDone (v : TickValue) : (openSession v s).initDone = s.initDone := rfl
@[simp] theorem openSession_fault (v : TickValue) : (openSession v s).fault = s.fault := rfl
@[simp] theorem openSession_cfg (v : TickValue) : (openSession v s).cfg = s.cfg := rfl
@[simp] theorem openSession_arrivals (v : TickValue) : (openSession v s).arrivals = s.arrivals := rfl
@[simp] theorem openSession_inputs (v : TickValue) : (openSession v s).inputs = s.inputs := rfl
@[simp] theorem openSession_events (v : TickValue) : (openSession v s).events = s.events := rfl
@[simp] theorem openSession_results (v : TickValue) : (openSession v s).results = s.results := rfl

/-! `closeSession`. -/
@[simp] theorem closeSession_state (n : SessionState) : (closeSession n s).state = n := rfl
@[simp] theorem closeSession_buf (n : SessionState) : (closeSession n s).buf = s.buf := rfl
@[simp] theorem closeSession_count (n : SessionState) : (closeSession n s).count = s.count := rfl
@[simp] theorem closeSession_lastTs (n : SessionState) : (closeSession n s).lastTs = s.lastTs := rfl
@[simp] theorem closeSession_newEdge (n : SessionState) : (closeSession n s).newEdge = s.newEdge := rfl
@[simp] theorem closeSession_startMs (n : SessionState) : (closeSession n s).startMs = s.startMs := rfl
@[simp] theorem closeSession_armed (n : SessionState) : (closeSession n s).armed = false := rfl
@[simp] theorem closeSession_capPol (n : SessionState) : (closeSession n s).capPol = s.capPol := rfl
@[simp] theorem closeSession_lineMode (n : SessionState) : (closeSession n s).lineMode = s.lineMode := rfl
@[simp] theorem closeSession_initDone (n : SessionState) : (closeSession n s).initDone = s.initDone := rfl
@[simp] theorem closeSession_fault (n : SessionState) : (closeSession n s).fault = s.fault := rfl
@[simp] theorem closeSession_cfg (n : SessionState) : (closeSession n s).cfg = s.cfg := rfl
@[simp] theorem closeSession_arrivals (n : SessionState) : (closeSession n s).arrivals = s.arrivals := rfl
@[simp] theorem closeSession_inputs (n : SessionState) : (closeSession n s).inputs = s.inputs := rfl
@[simp] theorem closeSession_events (n : SessionState) : (closeSession n s).events = s.events ++ [.captureDisarm] := rfl
@[simp] theorem closeSession_results (n : SessionState) : (closeSession n s).results = s.results := rfl

/-! `consumeSession`. -/
@[simp] theorem consumeSession_state : (consumeSession s).state = .idle := rfl
@[simp] theorem consumeSession_buf : (consumeSession s).buf = s.buf := rfl
@[simp] theorem consumeSession_count : (consumeSession s).count = s.count := rfl
@[simp] theorem consumeSession_lastTs : (consumeSession s).lastTs = s.lastTs := rfl
@[simp] theorem consumeSession_newEdge : (consumeSession s).newEdge = s.newEdge := rfl
@[simp] theorem consumeSession_startMs : (consumeSession s).startMs = s.startMs := rfl
@[simp] theorem consumeSession_armed : (consumeSession s).armed = s.armed := rfl
@[simp] theorem consumeSession_capPol : (consumeSession s).capPol = s.capPol := rfl
@[simp] theorem consumeSession_lineMode : (consumeSession s).lineMode = s.lineMode := rfl
@[simp] theorem consumeSession_initDone : (consumeSession s).initDone = s.initDone := rfl
@[simp] theorem consumeSession_fault : (consumeSession s).fault = s.fault := rfl
@[simp] theorem consumeSession_cfg : (consumeSession s).cfg = s.cfg := rfl
@[simp] theorem consumeSession_arrivals : (consumeSession s).arrivals = s.arrivals := rfl
@[simp] theorem consumeSession_inputs : (consumeSession s).inputs = s.inputs := rfl
@[simp] theorem consumeSession_events : (consumeSession s).events = s.events := rfl
@[simp] theorem consumeSession_results : (consumeSession s).results = s.results := rfl

/-! `accept`. -/
@[simp] theorem accept_state (r : Request) (l : List Request) : (accept r l s).state = s.state := rfl
@[simp] theorem accept_buf (r : Request) (l : List Request) : (accept r l s).buf = s.buf := rfl
@[simp] theorem accept_count (r : Request) (l : List Request) : (accept r l s).count = s.count := rfl
@[simp] theorem accept_lastTs (r : Request) (l : List Request) : (accept r l s).lastTs = s.lastTs := rfl
@[simp] theorem accept_newEdge (r : Request) (l : List Request) : (accept r l s).newEdge = s.newEdge := rfl
@[simp] theorem accept_startMs (r : Request) (l : List Request) : (accept r l s).startMs = s.startMs := rfl
@[simp] theorem accept_armed (r : Request) (l : List Request) : (accept r l s).armed = s.armed := rfl
@[simp] theorem accept_capPol (r : Request) (l : List Request) : (accept r l s).capPol = s.capPol := rfl
@[simp] theorem accept_lineMode (r : Request) (l : List Request) : (accept r l s).lineMode = s.lineMode := rfl
@[simp] theorem accept_initDone (r : Request) (l : List Request) : (accept r l s).initDone = s.initDone := rfl
@[simp] theorem accept_fault (r : Request) (l : List Request) : (accept r l s).fault = s.fault := rfl
@[simp] theorem accept_cfg (r : Request) (l : List Request) : (accept r l s).cfg = s.cfg := rfl
@[simp] theorem accept_arrivals (r : Request) (l : List Request) : (accept r l s).arrivals = l := rfl
@[simp] theorem accept_inputs (r : Request) (l : List Request) : (accept r l s).inputs = r.inputs := rfl
@[simp] theorem accept_events (r : Request) (l : List Request) : (accept r l s).events = s.events := rfl
@[simp] theorem accept_results (r : Request) (l : List Request) : (accept r l s).results = s.results := rfl

/-! `placeCommand`. -/
@[simp] theorem placeCommand_state (p : Port) (w : CommandWord) : (placeCommand p w s).state = s.state := rfl
@[simp] theorem placeCommand_buf (p : Port) (w : CommandWord) : (placeCommand p w s).buf = s.buf := rfl
@[simp] theorem placeCommand_count (p : Port) (w : CommandWord) : (placeCommand p w s).count = s.count := rfl
@[simp] theorem placeCommand_lastTs (p : Port) (w : CommandWord) : (placeCommand p w s).lastTs = s.lastTs := rfl
@[simp] theorem placeCommand_newEdge (p : Port) (w : CommandWord) : (placeCommand p w s).newEdge = s.newEdge := rfl
@[simp] theorem placeCommand_startMs (p : Port) (w : CommandWord) : (placeCommand p w s).startMs = s.startMs := rfl
@[simp] theorem placeCommand_armed (p : Port) (w : CommandWord) : (placeCommand p w s).armed = s.armed := rfl
@[simp] theorem placeCommand_capPol (p : Port) (w : CommandWord) : (placeCommand p w s).capPol = s.capPol := rfl
@[simp] theorem placeCommand_lineMode (p : Port) (w : CommandWord) : (placeCommand p w s).lineMode = s.lineMode := rfl
@[simp] theorem placeCommand_initDone (p : Port) (w : CommandWord) : (placeCommand p w s).initDone = s.initDone := rfl
@[simp] theorem placeCommand_fault (p : Port) (w : CommandWord) : (placeCommand p w s).fault = s.fault := rfl
@[simp] theorem placeCommand_cfg (p : Port) (w : CommandWord) : (placeCommand p w s).cfg = s.cfg := rfl
@[simp] theorem placeCommand_arrivals (p : Port) (w : CommandWord) : (placeCommand p w s).arrivals = { port := p, word := w, inputs := s.inputs } :: s.arrivals := rfl
@[simp] theorem placeCommand_inputs (p : Port) (w : CommandWord) : (placeCommand p w s).inputs = s.inputs := rfl
@[simp] theorem placeCommand_events (p : Port) (w : CommandWord) : (placeCommand p w s).events = s.events := rfl
@[simp] theorem placeCommand_results (p : Port) (w : CommandWord) : (placeCommand p w s).results = s.results := rfl

/-! `State.resetWith`. -/
@[simp] theorem resetWith_state (c : Config) : (State.resetWith c).state = .idle := rfl
@[simp] theorem resetWith_buf (c : Config) : (State.resetWith c).buf = [] := rfl
@[simp] theorem resetWith_count (c : Config) : (State.resetWith c).count = 0#8 := rfl
@[simp] theorem resetWith_lastTs (c : Config) : (State.resetWith c).lastTs = 0 := rfl
@[simp] theorem resetWith_newEdge (c : Config) : (State.resetWith c).newEdge = false := rfl
@[simp] theorem resetWith_startMs (c : Config) : (State.resetWith c).startMs = 0 := rfl
@[simp] theorem resetWith_armed (c : Config) : (State.resetWith c).armed = false := rfl
@[simp] theorem resetWith_capPol (c : Config) : (State.resetWith c).capPol = .unset := rfl
@[simp] theorem resetWith_lineMode (c : Config) : (State.resetWith c).lineMode = .released := rfl
@[simp] theorem resetWith_initDone (c : Config) : (State.resetWith c).initDone = false := rfl
@[simp] theorem resetWith_fault (c : Config) : (State.resetWith c).fault = none := rfl
@[simp] theorem resetWith_cfg (c : Config) : (State.resetWith c).cfg = c := rfl
@[simp] theorem resetWith_arrivals (c : Config) : (State.resetWith c).arrivals = [] := rfl
@[simp] theorem resetWith_events (c : Config) : (State.resetWith c).events = [] := rfl
@[simp] theorem resetWith_results (c : Config) : (State.resetWith c).results = [] := rfl

end Sys2Proof.Machine
end

