-- ==== Sys2Proof/Laws/Buffer.lean ====
section
/-! SUPPORT. What the buffer's access primitives answer (20_memory.md R51). -/

namespace Sys2Proof.Machine

/-- BufRead answers a record exactly below count where the entry holds one. -/
theorem bufRead_eq_ok_iff (i : Nat) (s : State) (r : EdgeRecord) :
    bufRead i s = .ok r ↔ i < s.count.toNat ∧ Memory.lookup i s.buf = some r := by
  unfold bufRead
  split
  · next h => cases hl : Memory.lookup i s.buf <;> simp [h]
  · next h => simp [h]

/-- BufRead looks at the buffer and the count only. -/
theorem bufRead_congr {s t : State} (hb : t.buf = s.buf) (hc : t.count = s.count) (i : Nat) :
    bufRead i t = bufRead i s := by
  unfold bufRead
  rw [hb, hc]

section
variable (i : Nat) (s : State)
@[simp] theorem bufRead_emit (es : List Event) : bufRead i (emit es s) = bufRead i s := rfl
@[simp] theorem bufRead_respond (w : ResultWord) : bufRead i (respond w s) = bufRead i s := rfl
@[simp] theorem bufRead_markInitDone : bufRead i (markInitDone s) = bufRead i s := rfl
@[simp] theorem bufRead_closeSession (n : SessionState) : bufRead i (closeSession n s) = bufRead i s := rfl
@[simp] theorem bufRead_consumeSession : bufRead i (consumeSession s) = bufRead i s := rfl
@[simp] theorem bufRead_accept (r : Request) (l : List Request) : bufRead i (accept r l s) = bufRead i s := rfl
@[simp] theorem bufRead_openSession (v : TickValue) : bufRead i (openSession v s) = .error (.bufReadOutside i) := by
  simp [bufRead]
end

/-- Everything BufWrite can do. -/
theorem bufWrite_eq_ok_iff (i : Nat) (r : EdgeRecord) (s t : State) :
    bufWrite i r s = .ok t ↔
      i = s.count.toNat ∧ i < s.cfg.capacity ∧ t = { s with buf := Memory.store i r s.buf } := by
  unfold bufWrite
  split
  · next h =>
    constructor
    · intro h1; cases h1; exact ⟨h.1, h.2, rfl⟩
    · rintro ⟨-, -, rfl⟩; rfl
  · next h =>
    constructor
    · intro h1; cases h1
    · rintro ⟨h1, h2, -⟩; exact absurd ⟨h1, h2⟩ h

/-- Below CAPACITY the append always succeeds, and this is all it does. -/
theorem appendRecord_eq (r : EdgeRecord) {s : State} (h : s.count.toNat < s.cfg.capacity) :
    appendRecord r s = .ok { s with
      buf := Memory.store s.count.toNat r s.buf
      count := s.count + 1#8
      lastTs := r.ts
      newEdge := true } := by
  simp [appendRecord, bufWrite, h]

/-- The count after an append, where CAPACITY fits its 8 bits. -/
theorem count_succ {s : State} (hc : s.cfg.capacity ≤ 255) (h : s.count.toNat < s.cfg.capacity) :
    (s.count + 1#8).toNat = s.count.toNat + 1 := by
  rw [BitVec.toNat_add]
  simp only [BitVec.toNat_ofNat]
  omega

theorem bufReadAll_zero (s : State) : bufReadAll 0 s = .ok [] := rfl

theorem bufReadAll_succ (n : Nat) (s : State) :
    bufReadAll (n + 1) s =
      match bufReadAll n s with
      | .error f => .error f
      | .ok rs =>
        match bufRead n s with
        | .error f => .error f
        | .ok r => .ok (rs ++ [r]) := rfl

/-- Reading the first `n` records gives exactly the entries 0 .. n-1 in order. -/
theorem bufReadAll_eq_ok_iff (n : Nat) (s : State) (rs : List EdgeRecord) :
    bufReadAll n s = .ok rs ↔ rs.length = n ∧ ∀ i (h : i < rs.length), bufRead i s = .ok rs[i] := by
  induction n generalizing rs with
  | zero =>
    rw [bufReadAll_zero]
    constructor
    · intro h; cases h; simp
    · rintro ⟨h, -⟩; rw [List.eq_nil_of_length_eq_zero h]
  | succ n ih =>
    rw [bufReadAll_succ]
    constructor
    · intro h
      cases hn : bufReadAll n s with
      | error f => rw [hn] at h; cases h
      | ok rs' =>
        rw [hn] at h
        cases hr : bufRead n s with
        | error f => simp [hr] at h
        | ok r =>
          simp only [hr] at h
          cases h
          obtain ⟨hl, hi⟩ := (ih rs').1 hn
          refine ⟨by simp [hl], fun i h => ?_⟩
          by_cases hin : i < rs'.length
          · rw [List.getElem_append_left hin]; exact hi i hin
          · have : i = n := by simp at h; omega
            subst this
            rw [List.getElem_append_right (by omega)]
            simpa [hl] using hr
    · rintro ⟨hl, hi⟩
      have hdrop : rs.take n ++ [rs[n]] = rs := by
        rw [List.take_append_getElem]
        exact List.take_of_length_le (by omega)
      have h1 : bufReadAll n s = .ok (rs.take n) := by
        rw [ih]
        refine ⟨by simp; omega, fun i h => ?_⟩
        have h' : i < rs.length := by simp at h; omega
        rw [hi i h']
        simp
      simp only [h1, hi n (by omega)]
      rw [hdrop]

/-- Where every entry below count holds a record, reading them all succeeds. -/
theorem bufReadAll_of_listed {s : State} (h : ∀ i < s.count.toNat, (Memory.lookup i s.buf).isSome = true) (n : Nat)
    (hn : n ≤ s.count.toNat) : ∃ rs, bufReadAll n s = .ok rs := by
  induction n with
  | zero => exact ⟨[], rfl⟩
  | succ n ih =>
    obtain ⟨rs, hrs⟩ := ih (by omega)
    obtain ⟨r, hr⟩ := Option.isSome_iff_exists.1 (h n (by omega))
    have : bufRead n s = .ok r := (bufRead_eq_ok_iff n s r).2 ⟨by omega, hr⟩
    exact ⟨rs ++ [r], by rw [bufReadAll_succ, hrs, this]⟩

/-- Reading all records looks at the buffer and the count only. -/
theorem bufReadAll_congr {s t : State} (hb : t.buf = s.buf) (hc : t.count = s.count) (n : Nat) :
    bufReadAll n t = bufReadAll n s := by
  induction n with
  | zero => rfl
  | succ n ih => rw [bufReadAll_succ, bufReadAll_succ, ih, bufRead_congr hb hc]

end Sys2Proof.Machine
end

