-- ==== Sys2Proof/Laws/Decoder.lean ====
section
/-! SUPPORT. The stages of the frame decoder: how each reads its list. -/

namespace Sys2Proof.Machine

variable (c : Config)

@[simp] theorem pulsesUpTo_nil (n : Nat) : pulsesUpTo c n [] = [] := by cases n <;> rfl

@[simp] theorem pulsesUpTo_zero (rs : List EdgeRecord) : pulsesUpTo c 0 rs = [] := by cases rs <;> rfl

/-- A falling record that is no partner is skipped. -/
theorem pulsesUpTo_fall (n : Nat) (t : CounterValue) (rs : List EdgeRecord) :
    pulsesUpTo c n ({ ts := t, lvl := false } :: rs) = pulsesUpTo c n rs := by
  cases n <;> simp [pulsesUpTo]

/-- A rising record with a falling record somewhere after it starts one pulse. -/
theorem pulsesUpTo_rise_some (n : Nat) (t : CounterValue) {rs : List EdgeRecord} {f : EdgeRecord}
    (h : nextFalling rs = some f) :
    pulsesUpTo c (n + 1) ({ ts := t, lvl := true } :: rs) = pulseWidth c t f.ts :: pulsesUpTo c n rs := by
  simp [pulsesUpTo, h]

/-- A rising record with no falling record after it stops the collection. -/
theorem pulsesUpTo_rise_none (n : Nat) (t : CounterValue) {rs : List EdgeRecord} (h : nextFalling rs = none) :
    pulsesUpTo c n ({ ts := t, lvl := true } :: rs) = [] := by
  cases n <;> simp [pulsesUpTo, h]

theorem nextFalling_fall (t : CounterValue) (rs : List EdgeRecord) :
    nextFalling ({ ts := t, lvl := false } :: rs) = some { ts := t, lvl := false } := rfl

theorem nextFalling_rise (t : CounterValue) (rs : List EdgeRecord) :
    nextFalling ({ ts := t, lvl := true } :: rs) = nextFalling rs := rfl

/-- The next falling record is a falling record. -/
theorem nextFalling_lvl {rs : List EdgeRecord} {f : EdgeRecord} (h : nextFalling rs = some f) : f.lvl = false := by
  induction rs with
  | nil => cases h
  | cons r rs ih =>
    unfold nextFalling at h
    split at h
    · exact ih h
    · next hr => cases h; simpa using hr

/-- Where no falling record follows, no pulse does. -/
theorem pulsesUpTo_of_no_fall (n : Nat) {rs : List EdgeRecord} (h : nextFalling rs = none) :
    pulsesUpTo c n rs = [] := by
  cases rs with
  | nil => simp
  | cons r rs =>
    obtain ⟨t, l⟩ := r
    cases l
    · cases h
    · exact pulsesUpTo_rise_none c n t h

/-- The room only cuts the list of widths. -/
theorem pulsesUpTo_eq_take {m n : Nat} (h : m ≤ n) (rs : List EdgeRecord) :
    pulsesUpTo c m rs = (pulsesUpTo c n rs).take m := by
  induction rs generalizing m n with
  | nil => simp
  | cons r rs ih =>
    obtain ⟨t, l⟩ := r
    cases l
    · rw [pulsesUpTo_fall, pulsesUpTo_fall]; exact ih h
    · cases hf : nextFalling rs with
      | none => rw [pulsesUpTo_rise_none c m t hf, pulsesUpTo_rise_none c n t hf]; simp
      | some f =>
        cases m with
        | zero => simp
        | succ m =>
          obtain ⟨n, rfl⟩ : ∃ k, n = k + 1 := ⟨n - 1, by omega⟩
          rw [pulsesUpTo_rise_some c m t hf, pulsesUpTo_rise_some c n t hf, List.take_succ_cons, ih (Nat.le_of_succ_le_succ h)]

@[simp] theorem length_dataPulses (ws : List CounterValue) : (dataPulses ws).length = min 40 (ws.length - 1) := by
  simp [dataPulses, Config.dataBits]

@[simp] theorem length_frameBits (ws : List CounterValue) : (frameBits c ws).length = min 40 (ws.length - 1) := by
  simp [frameBits]

theorem sufficient_iff (ws : List CounterValue) : sufficient ws = true ↔ 41 ≤ ws.length :=
  decide_eq_true_iff

theorem classify_iff (d : CounterValue) : classify c d = true ↔ c.bitThreshold < d := decide_eq_true_iff

/-- The bit of the k-th data pulse is read from width k + 1. -/
theorem frameBits_getElem (ws : List CounterValue) (k : Nat) (h : k < (frameBits c ws).length) :
    (frameBits c ws)[k] = classify c (ws[k + 1]'(by simp at h; omega)) := by
  simp [frameBits, dataPulses]

theorem checksumOk_iff (f : Frame) : checksumOk f = true ↔ checksum f.b0 f.b1 f.b2 f.b3 = f.b4 := by simp [checksumOk]

theorem checksumOk_checkedFrame (b0 b1 b2 b3 : Byte) : checksumOk (checkedFrame b0 b1 b2 b3) = true := by
  simp [checksumOk, checkedFrame]

end Sys2Proof.Machine
end

