-- ==== Sys2Proof/Laws/Exec.lean ====
section
/-! SUPPORT. Everything each instruction, and one step, can do: one inversion lemma each. Later proofs cite these and
unfold no meaning. -/

namespace Sys2Proof.Machine

open Host (Outcome)

/-- The state after one accepted record that does not fill the buffer. -/
def appended (r : EdgeRecord) (s : State) : State :=
  { s with buf := Memory.store s.count.toNat r s.buf, count := s.count + 1#8, lastTs := r.ts, newEdge := true }

section
variable (r : EdgeRecord) (s : State)
@[simp] theorem appended_state : (appended r s).state = s.state := rfl
@[simp] theorem appended_buf : (appended r s).buf = Memory.store s.count.toNat r s.buf := rfl
@[simp] theorem appended_count : (appended r s).count = s.count + 1#8 := rfl
@[simp] theorem appended_lastTs : (appended r s).lastTs = r.ts := rfl
@[simp] theorem appended_newEdge : (appended r s).newEdge = true := rfl
@[simp] theorem appended_startMs : (appended r s).startMs = s.startMs := rfl
@[simp] theorem appended_armed : (appended r s).armed = s.armed := rfl
@[simp] theorem appended_capPol : (appended r s).capPol = s.capPol := rfl
@[simp] theorem appended_lineMode : (appended r s).lineMode = s.lineMode := rfl
@[simp] theorem appended_initDone : (appended r s).initDone = s.initDone := rfl
@[simp] theorem appended_fault : (appended r s).fault = s.fault := rfl
@[simp] theorem appended_cfg : (appended r s).cfg = s.cfg := rfl
@[simp] theorem appended_arrivals : (appended r s).arrivals = s.arrivals := rfl
@[simp] theorem appended_inputs : (appended r s).inputs = s.inputs := rfl
@[simp] theorem appended_events : (appended r s).events = s.events := rfl
@[simp] theorem appended_results : (appended r s).results = s.results := rfl
end

theorem appendRecord_eq_appended (r : EdgeRecord) {s : State} (h : s.count.toNat < s.cfg.capacity) :
    appendRecord r s = .ok (appended r s) := appendRecord_eq r h

/-- After an accepted record its entry reads it, and every other entry reads as before. -/
theorem bufRead_appended (r : EdgeRecord) {s : State} (h : (s.count + 1#8).toNat = s.count.toNat + 1) (j : Nat) :
    bufRead j (appended r s) = if j = s.count.toNat then .ok r else bufRead j s := by
  unfold bufRead
  simp only [appended_buf, appended_count, h, Memory.lookup_store]
  by_cases hj : j = s.count.toNat
  · simp [hj]
  · simp only [hj, if_false]
    by_cases h2 : j < s.count.toNat
    · simp [h2, Nat.lt_succ_of_lt h2]
    · have h3 : ¬j < s.count.toNat + 1 := by omega
      simp [h2, h3]

/-- INIT always answers a next state. -/
theorem execInit_eq (s : State) :
    execInit s = .next (if s.initDone = true then s else markInitDone (emit [.delayInit] s)) := by
  unfold execInit
  split <;> rfl

/-- Everything START can do. -/
theorem execStart_cases {s t : State} (h : execStart s = .next t) :
    (s.initDone = false ∧ t = { s with fault := some .startBeforeInit }) ∨
      (s.initDone = true ∧ s.state = .idle ∧ t = openSession (nowMs s) (emit (wakeAndArm s.cfg) s)) ∨
        (s.initDone = true ∧ s.state ≠ .idle ∧ t = s) := by
  unfold execStart raiseModelFault at h
  split at h
  · next hi =>
    split at h <;> cases h
    · next hs => exact .inr (.inl ⟨hi, hs, rfl⟩)
    · next hs => exact .inr (.inr ⟨hi, by simp [hs], rfl⟩)
    · next hs => exact .inr (.inr ⟨hi, by simp [hs], rfl⟩)
  · next hi => cases h; exact .inl ⟨by simpa using hi, rfl⟩

/-- SERVICE always answers a next state, and this is which. -/
theorem execService_eq (s : State) :
    execService s = .next
      (if s.state = .capturing then
        (if timeoutFires s.cfg (nowMs s) s.startMs = true then closeSession .idle s
         else if 1 ≤ s.count.toNat ∧ silenceFires s.cfg (nowCnt s) s.lastTs = true then closeSession .ready s
         else s)
       else s) := by
  unfold execService
  cases hs : s.state with
  | idle => rfl
  | ready => rfl
  | capturing =>
    unfold serviceCapturing serviceSilence
    by_cases ht : timeoutFires s.cfg (nowMs s) s.startMs = true
    · simp [ht]
    · by_cases hc : 1 ≤ s.count.toNat
      · by_cases hf : silenceFires s.cfg (nowCnt s) s.lastTs = true <;> simp [ht, hc, hf]
      · simp [ht, hc]

/-- Everything SERVICE can do. -/
theorem execService_cases {s t : State} (h : execService s = .next t) :
    (s.state ≠ .capturing ∧ t = s) ∨
      (s.state = .capturing ∧ timeoutFires s.cfg (nowMs s) s.startMs = true ∧ t = closeSession .idle s) ∨
      (s.state = .capturing ∧ timeoutFires s.cfg (nowMs s) s.startMs = false ∧ 1 ≤ s.count.toNat ∧
        silenceFires s.cfg (nowCnt s) s.lastTs = true ∧ t = closeSession .ready s) ∨
      (s.state = .capturing ∧ timeoutFires s.cfg (nowMs s) s.startMs = false ∧
        (1 ≤ s.count.toNat → silenceFires s.cfg (nowCnt s) s.lastTs = false) ∧ t = s) := by
  rw [execService_eq] at h
  have h := (Outcome.next.inj h).symm
  split at h
  · next hs =>
    split at h
    · next ht => exact .inr (.inl ⟨hs, ht, h⟩)
    · next ht =>
      have ht : timeoutFires s.cfg (nowMs s) s.startMs = false := by simpa using ht
      split at h
      · next hf => exact .inr (.inr (.inl ⟨hs, ht, hf.1, hf.2, h⟩))
      · next hf => exact .inr (.inr (.inr ⟨hs, ht, fun hc => by simpa using fun hf' => hf ⟨hc, hf'⟩, h⟩))
  · next hs => exact .inl ⟨hs, h⟩

/-- Everything READ can do. -/
theorem execRead_cases {s t : State} (h : execRead s = .next t) :
    (s.state = .idle ∧ t = respond (Result.bare .timedOut).word s) ∨
      (s.state = .capturing ∧ t = respond (Result.bare .busy).word s) ∨
        (s.state = .ready ∧ ∃ rs, bufReadAll s.count.toNat s = .ok rs ∧
          t = respond (decodeFrame s.cfg rs).word (consumeSession s)) := by
  unfold execRead at h
  split at h
  · next hs => cases h; exact .inl ⟨hs, rfl⟩
  · next hs => cases h; exact .inr (.inl ⟨hs, rfl⟩)
  · next hs =>
    unfold readReady at h
    split at h
    · cases h
    · next rs hr => cases h; exact .inr (.inr ⟨hs, rs, hr, rfl⟩)

/-- EDGE always answers a next state, and this is which. -/
theorem execEdge_eq (level : Bool) (s : State) :
    execEdge level s = .next
      (if s.armed = true ∧ s.count.toNat < s.cfg.capacity then
        (if s.count.toNat + 1 = s.cfg.capacity then closeSession .ready (appended (edgeRecord level s) s)
         else appended (edgeRecord level s) s)
       else s) := by
  unfold execEdge captureEdge interruptEntry interruptReturn
  by_cases ha : s.armed = true
  · by_cases hc : s.count.toNat < s.cfg.capacity
    · simp only [ha, hc, appendRecord_eq_appended _ hc, fillsBuffer, decide_eq_true_eq, and_self, if_true]
    · simp [ha, hc]
  · simp [ha]

/-- Everything EDGE can do. -/
theorem execEdge_cases {level : Bool} {s t : State} (h : execEdge level s = .next t) :
    ((s.armed = false ∨ s.cfg.capacity ≤ s.count.toNat) ∧ t = s) ∨
      (s.armed = true ∧ s.count.toNat + 1 < s.cfg.capacity ∧ t = appended (edgeRecord level s) s) ∨
        (s.armed = true ∧ s.count.toNat + 1 = s.cfg.capacity ∧
          t = closeSession .ready (appended (edgeRecord level s) s)) := by
  rw [execEdge_eq] at h
  have h := (Outcome.next.inj h).symm
  split at h
  · next hc =>
    split at h
    · next hf => exact .inr (.inr ⟨hc.1, hf, h⟩)
    · next hf => exact .inr (.inl ⟨hc.1, by omega, h⟩)
  · next hc =>
    left
    refine ⟨?_, h⟩
    cases ha : s.armed
    · exact .inl rfl
    · right
      by_contra hlt
      exact hc ⟨ha, by omega⟩

/-- No instruction writes the fields that belong to the step and the configuration. -/
theorem exec_keeps {i : Instr} {s t : State} (h : exec i s = .next t) :
    t.arrivals = s.arrivals ∧ t.inputs = s.inputs ∧ t.cfg = s.cfg := by
  cases i with
  | init =>
    simp only [exec, execInit_eq] at h
    cases h
    split <;> simp
  | start => rcases execStart_cases h with ⟨-, rfl⟩ | ⟨-, -, rfl⟩ | ⟨-, -, rfl⟩ <;> simp
  | service =>
    rcases execService_cases h with ⟨-, rfl⟩ | ⟨-, -, rfl⟩ | ⟨-, -, -, -, rfl⟩ | ⟨-, -, -, rfl⟩ <;> simp
  | read => rcases execRead_cases h with ⟨-, rfl⟩ | ⟨-, rfl⟩ | ⟨-, -, -, rfl⟩ <;> simp
  | edge level => rcases execEdge_cases h with ⟨-, rfl⟩ | ⟨-, -, rfl⟩ | ⟨-, -, rfl⟩ <;> simp

/-- Everything one step that goes on can do: an operation is taken, and either its word is illegal or its instruction
runs. -/
theorem step_cases {s t : State} (h : step s = .next t) :
    s.cfg.wf = true ∧ s.fault = none ∧ ∃ r rest, s.arrivals = r :: rest ∧
      ((∃ e, decode r.port r.word = .error e ∧
          t = { accept r rest s with fault := some (.illegalCommand r.port r.word) }) ∨
        ∃ i, decode r.port r.word = .ok i ∧ exec i (accept r rest s) = .next t) := by
  unfold step at h
  split at h
  · next hw =>
    split at h
    · cases h
    · next hf =>
      split at h
      · cases h
      · next r rest ha =>
        refine ⟨hw, hf, r, rest, ha, ?_⟩
        split at h
        · next e he => unfold raiseModelFault at h; cases h; exact .inl ⟨e, he, rfl⟩
        · next i hi => exact .inr ⟨i, hi, h⟩
  · cases h

/-- A step whose next operation decodes runs that instruction. -/
theorem step_of_decode {s : State} {r : Request} {rest : List Request} {i : Instr} (hw : s.cfg.wf = true)
    (hf : s.fault = none) (ha : s.arrivals = r :: rest) (hd : decode r.port r.word = .ok i) :
    step s = exec i (accept r rest s) := by
  unfold step
  rw [if_pos hw, hf, ha]
  simp only [hd]

end Sys2Proof.Machine
end

