-- ==== Sys2Proof/Laws/Flags.lean ====
section
/-! SUPPORT. The Boolean conditions as propositions. -/

namespace Sys2Proof

theorem Config.maxPulsesOk_iff (c : Config) : c.maxPulsesOk = true ↔ 41 ≤ c.maxPulses := decide_eq_true_iff

/-- The constraints of 00_scope.md R10, one by one. -/
theorem Config.wf_iff (c : Config) : c.wf = true ↔
    (1 ≤ c.capacity ∧ c.capacity ≤ 255) ∧ 41 ≤ c.maxPulses ∧
      (1 ≤ c.cntBits ∧ c.silenceLimit < 2 ^ c.cntBits ∧ c.bitThreshold < 2 ^ c.cntBits) ∧
      (1 ≤ c.tickBits ∧ c.timeoutLimit < 2 ^ c.tickBits) ∧ 1 ≤ c.wakeLowMs := by
  simp only [Config.wf, Bool.and_eq_true, Config.maxPulsesOk_iff, Config.capacityOk, Config.cntBitsOk,
    Config.tickBitsOk, Config.wakeLowOk, decide_eq_true_eq]
  tauto

namespace Machine

theorem timeoutFires_iff (c : Config) (now start : Nat) :
    timeoutFires c now start = true ↔ c.timeoutLimit < subMod c.tickBits now start := decide_eq_true_iff

theorem silenceFires_iff (c : Config) (now last : Nat) :
    silenceFires c now last = true ↔ c.silenceLimit < subMod c.cntBits now last := decide_eq_true_iff

theorem fillsBuffer_iff (s : State) : fillsBuffer s = true ↔ s.count.toNat + 1 = s.cfg.capacity := decide_eq_true_iff

/-- A comparison of the exact difference with a limit is one of the modular difference. -/
theorem lt_subMod_iff (n l a b : Nat) : (l : Int) < ((a : Int) - (b : Int)) % (2 : Int) ^ n ↔ l < subMod n a b := by
  have h := subMod_cast n a b
  push_cast at h
  rw [← h]
  exact Nat.cast_lt

/-- A record count is zero exactly when it is the zero word. -/
theorem count_pos_iff (b : RecordCount) : b ≠ 0#8 ↔ 1 ≤ b.toNat := by
  rw [Nat.one_le_iff_ne_zero, ne_eq, ne_eq, ← BitVec.toNat_inj]
  rfl

end Machine

end Sys2Proof
end

