-- ==== Sys2Proof/Laws/PerInstr.lean ====
section
/-! SUPPORT. Laws made per instruction: every instruction's word decodes on its own port to the instruction. -/

namespace Sys2Proof.Laws.RoundTrip

/-- The command of the instruction is well formed, and its word decodes back to it on that port. -/
def Statement (i : Instr) : Prop :=
  Command.wf { port := i.port, instr := i } = true ∧ decode i.port (encode i) = .ok i

theorem init : Statement .init := by unfold Statement; decide
theorem start : Statement .start := by unfold Statement; decide
theorem service : Statement .service := by unfold Statement; decide
theorem read : Statement .read := by unfold Statement; decide
theorem edge (level : Bool) : Statement (.edge level) := by
  unfold Statement
  cases level <;> decide

end Sys2Proof.Laws.RoundTrip
end

