-- ==== Sys2Proof/Laws/Words.lean ====
section
/-! SUPPORT. The STATUS view and the result word, bit by bit. -/

namespace Sys2Proof.Machine

/-- Every bit of the STATUS view. -/
theorem statusWord_getLsbD (s : State) (i : Nat) : (statusWord s).getLsbD i =
    if i < 2 then s.state.code.getLsbD i else if i = 2 then s.armed else if i = 3 then s.newEdge
    else if i = 4 then s.lineMode.bit else if i = 5 then s.initDone else if i = 6 then s.fault.isSome
    else if i = 7 then false else s.count.getLsbD (i - 8) := by
  unfold statusWord
  change BitVec.getLsbD (w := 8 + (1 + (1 + (1 + (1 + (1 + (1 + 2))))))) _ i = _
  simp only [BitVec.getLsbD_append, BitVec.getLsbD_ofBool]
  repeat' split
  all_goals first | omega | skip
  all_goals simp_all

/-- Every bit of a result word. -/
theorem Result.word_getLsbD (r : Result) (i : Nat) : r.word.getLsbD i =
    if i < 3 then r.code.bits.getLsbD i else if i < 8 then false else if i < 24 then r.tRaw.getLsbD (i - 8)
    else r.hRaw.getLsbD (i - 24) := by
  unfold Result.word
  change BitVec.getLsbD (w := 16 + (16 + (5 + 3))) _ i = _
  simp only [BitVec.getLsbD_append]
  repeat' split
  all_goals first | omega | skip
  all_goals simp_all

end Sys2Proof.Machine
end

