-- ==== Sys2Proof/Machine/Assembler.lean ====
section
/-! DEFINITION. The assembler syntax (30_encoding.md R84): one operation per line, `;` comments, upper-case mnemonics,
named operands, decimal or 0x numbers, no labels; and the pseudo-instructions of R85. A program is the list of its
operations in arbitration order. What R84 leaves open is log 19. -/

namespace Sys2Proof.Machine

/-- Why a line is refused. -/
inductive AsmError where
  /-- The mnemonic, or its list of operands, is none of 30_encoding.md R84 and R85. -/
  | badOperation
  /-- An operand that is neither a decimal nor a 0x number, or a byte above 255, or a level above 1. -/
  | badNumber
  deriving DecidableEq, Repr

/-- The part of a line before its comment. -/
def dropComment : List Char → List Char
  | [] => []
  | ch :: rest => if ch = ';' then [] else ch :: dropComment rest

/-- The pieces of a list of characters between the separators. -/
def splitOn (sep : Char) : List Char → List (List Char)
  | [] => [[]]
  | ch :: rest =>
    match splitOn sep rest with
    | [] => [[ch]]
    | piece :: more => if ch = sep then [] :: piece :: more else (ch :: piece) :: more

/-- The value of a digit of base 16. -/
def digitValue (ch : Char) : Option Nat :=
  if '0' ≤ ch ∧ ch ≤ '9' then some (ch.toNat - '0'.toNat)
  else if 'a' ≤ ch ∧ ch ≤ 'f' then some (ch.toNat - 'a'.toNat + 10)
  else if 'A' ≤ ch ∧ ch ≤ 'F' then some (ch.toNat - 'A'.toNat + 10)
  else none

/-- A number in a base, after the digits already read. -/
def digits (base acc : Nat) : List Char → Option Nat
  | [] => some acc
  | ch :: rest =>
    match digitValue ch with
    | none => none
    | some d => if d < base then digits base (acc * base + d) rest else none

/-- A number: decimal, or hexadecimal after the prefix 0x. -/
def number : List Char → Option Nat
  | [] => none
  | ['0', 'x'] => none
  | '0' :: 'x' :: rest => digits 16 0 rest
  | cs => digits 10 0 cs

/-- Characters without the blanks before its first other character. -/
def dropLeadingBlanks : List Char → List Char
  | [] => []
  | ch :: rest => if ch = ' ' ∨ ch = '\t' ∨ ch = '\r' then dropLeadingBlanks rest else ch :: rest

/-- Characters without the blanks at either end. -/
def trimBlanks (cs : List Char) : List Char := (dropLeadingBlanks (dropLeadingBlanks cs).reverse).reverse

/-- An operand: its name, empty for a positional one, and its value. DESIGN CHOICE, log 19: blanks may stand before and
after a name and a number; a blank inside one, and an equals sign with no name before it, refuse the operand. -/
def operand (cs : List Char) : Option (List Char × Nat) :=
  match splitOn '=' cs with
  | [value] => (number (trimBlanks value)).map fun v => ([], v)
  | [name, value] =>
    if trimBlanks name = [] then none else (number (trimBlanks value)).map fun v => (trimBlanks name, v)
  | _ => none

/-- Every operand of a list, or none where one is no operand. -/
def operands : List (List Char) → Option (List (List Char × Nat))
  | [] => some []
  | cs :: rest =>
    match operand cs, operands rest with
    | some o, some os => some (o :: os)
    | _, _ => none

/-- The mnemonic of a line and the text after it. -/
def splitMnemonic : List Char → List Char × List Char
  | [] => ([], [])
  | ch :: rest =>
    if ch = ' ' ∨ ch = '\t' ∨ ch = '\r' then ([], rest)
    else ((ch :: (splitMnemonic rest).1), (splitMnemonic rest).2)

/-- The EDGE operations of a record list. -/
def edgeRequests (rs : List EdgeRecord) : List Request := rs.map edgeRequest

/-- FRAME of five numbers, each a byte. -/
def frameLine (c : Config) (t0 b0 b1 b2 b3 b4 : Nat) : Except AsmError (List Request) :=
  if b0 < 256 ∧ b1 < 256 ∧ b2 < 256 ∧ b3 < 256 ∧ b4 < 256 then
    .ok (edgeRequests (frameRecords c t0
      { b0 := BitVec.ofNat 8 b0, b1 := BitVec.ofNat 8 b1, b2 := BitVec.ofNat 8 b2, b3 := BitVec.ofNat 8 b3,
        b4 := BitVec.ofNat 8 b4 }))
  else .error .badNumber

/-- One operation or pseudo-instruction, from its mnemonic and operands (30_encoding.md R84, R85). -/
def assembleOperation (c : Config) (mnemonic : String) (os : List (String × Nat)) : Except AsmError (List Request) :=
  match mnemonic, os with
  | "INIT", [] => .ok [Request.make .init 0 0 0]
  | "START", [("ms", v)] => .ok [Request.make .start v 0 0]
  | "SERVICE", [("ms", v), ("cnt", n)] => .ok [Request.make .service v n 0]
  | "READ", [] => .ok [Request.make .read 0 0 0]
  | "EDGE", [("t", t), ("l", l)] =>
    if l < 2 then .ok [Request.make (.edge (decide (l = 1))) 0 0 t] else .error .badNumber
  | "RISE", [("", t)] => .ok (edgeRequests [rise t])
  | "FALL", [("", t)] => .ok (edgeRequests [fall t])
  | "HIPULSE", [("", t), ("", w)] => .ok (edgeRequests (hiPulse c t w))
  | "FRAME", [("", t0), ("", b0), ("", b1), ("", b2), ("", b3), ("", b4)] => frameLine c t0 b0 b1 b2 b3 b4
  | "FRAMEC", [("", t0), ("", b0), ("", b1), ("", b2), ("", b3)] =>
    frameLine c t0 b0 b1 b2 b3 ((b0 + b1 + b2 + b3) % 256)
  | _, _ => .error .badOperation

/-- The operand texts of a line: none where only blanks follow the mnemonic. -/
def operandTexts (cs : List Char) : List (List Char) := if trimBlanks cs = [] then [] else splitOn ',' cs

/-- One line. An empty line, or one that is only a comment, is no operation. -/
def assembleLine (c : Config) (line : List Char) : Except AsmError (List Request) :=
  match splitMnemonic (dropLeadingBlanks (dropComment line)) with
  | ([], _) => .ok []
  | (m, rest) =>
    match operands (operandTexts rest) with
    | none => .error .badNumber
    | some os => assembleOperation c (String.ofList m) (os.map fun o => (String.ofList o.1, o.2))

/-- The lines in order, the first error winning. -/
def assembleLines (c : Config) : List (List Char) → Except AsmError (List Request)
  | [] => .ok []
  | line :: rest =>
    match assembleLine c line with
    | .error e => .error e
    | .ok ops =>
      match assembleLines c rest with
      | .error e => .error e
      | .ok more => .ok (ops ++ more)

/-- A program: its operations in arbitration order (30_encoding.md R84). -/
def assemble (c : Config) (text : String) : Except AsmError (List Request) :=
  assembleLines c (splitOn '\n' text.toList)

end Sys2Proof.Machine
end

