-- ==== Sys2Proof/Tests/Slice0.lean ====
section
/-! SUPPORT. The model's own tests: the checks of WellFormed, words written out from the spec's encoding, one step of each
instruction against the vectors of 95_test_vectors.md, the decoder's stages, and a witness for every statement that has
hypotheses. -/

namespace Sys2Proof.Tests

open Sys2Proof.Machine Sys2Proof.Claims

/-! ## WellFormed: an ill-formed term for each check -/

theorem test_vector_configuration_wf : Config.vector.wf = true := by decide

theorem test_capacity_zero_refused : Config.wf { Config.vector with capacity := 0 } = false := by decide

theorem test_capacity_256_refused : Config.wf { Config.vector with capacity := 256 } = false := by decide

theorem test_capacity_bounds_accepted :
    Config.wf { Config.vector with capacity := 1 } = true ∧ Config.wf { Config.vector with capacity := 255 } = true := by
  decide

theorem test_max_pulses_40_refused : Config.wf { Config.vector with maxPulses := 40 } = false := by decide

theorem test_cnt_bits_zero_refused :
    Config.wf { Config.vector with cntBits := 0, silenceLimit := 0, bitThreshold := 0 } = false := by decide

theorem test_silence_limit_too_wide_refused :
    Config.wf { Config.vector with cntBits := 8, bitThreshold := 50, silenceLimit := 256 } = false := by decide

theorem test_bit_threshold_too_wide_refused :
    Config.wf { Config.vector with cntBits := 8, bitThreshold := 256, silenceLimit := 255 } = false := by decide

theorem test_tick_bits_zero_refused : Config.wf { Config.vector with tickBits := 0, timeoutLimit := 0 } = false := by
  decide

theorem test_timeout_limit_too_wide_refused :
    Config.wf { Config.vector with tickBits := 5, timeoutLimit := 32 } = false := by decide

theorem test_wake_low_zero_refused : Config.wf { Config.vector with wakeLowMs := 0 } = false := by decide

theorem test_command_on_wrong_port_refused :
    Command.wf { port := .foreground, instr := .edge true } = false ∧
      Command.wf { port := .capture, instr := .read } = false ∧
      Command.wf { port := .capture, instr := .edge true } = true := by decide

theorem test_inputs_too_wide_refused :
    Inputs.wf Config.vector { nowMs := 0x100000000, nowCnt := 0, ts := 0 } = false ∧
      Inputs.wf Config.vector { nowMs := 0, nowCnt := 0x10000, ts := 0 } = false ∧
      Inputs.wf Config.vector { nowMs := 0, nowCnt := 0, ts := 0x10000 } = false ∧
      Inputs.wf Config.vector { nowMs := 0xFFFFFFFF, nowCnt := 0xFFFF, ts := 0xFFFF } = true := by decide

/-! ## Decode: words written out from 30_encoding.md R73, and the rejects of R74 -/

/-- The words of the map, bits 7 down to 0, one for each row. -/
theorem test_decode_rows :
    decode .foreground 0b00000000#8 = .ok .init ∧ decode .foreground 0b00000001#8 = .ok .start ∧
      decode .foreground 0b00000010#8 = .ok .service ∧ decode .foreground 0b00000011#8 = .ok .read ∧
      decode .capture 0b00000100#8 = .ok (.edge false) ∧ decode .capture 0b00001100#8 = .ok (.edge true) := by decide

/-- Vectors X-1 to X-6. -/
theorem test_decode_rejects_by_name :
    decode .foreground 0x05#8 = .error .reservedOp ∧ decode .foreground 0x06#8 = .error .reservedOp ∧
      decode .foreground 0x07#8 = .error .reservedOp ∧ decode .foreground 0x0B#8 = .error .levelWithoutEdge ∧
      decode .foreground 0x04#8 = .error .edgeOnForeground ∧ decode .foreground 0x0C#8 = .error .edgeOnForeground ∧
      decode .capture 0x03#8 = .error .foregroundOpOnCapture ∧ decode .foreground 0x12#8 = .error .reservedBits ∧
      decode .capture 0x14#8 = .error .reservedBits := by decide

theorem test_decode_table_word :
    decodeTableWord 8 3 = some .read ∧ decodeTableWord 8 0x0C = some (.edge true) ∧ decodeTableWord 8 0x13 = none ∧
      decodeTableWord 8 256 = none ∧ decodeTableWord 16 3 = none := by decide

/-! ## Small states -/

/-- The next state of an outcome, if there is one. -/
def stateAfter : Host.Outcome State Fault Refusal → Option State
  | .next t => some t
  | .fault _ => none
  | .refused _ => none

/-- The vectors' `SI` under a configuration: reset and INIT, the events left out. -/
def initialised (c : Config) : State := { State.resetWith c with initDone := true }

/-- `Capturing` with no record yet. -/
def open0 (c : Config) (start : TickValue) : State :=
  { initialised c with state := .capturing, armed := true, capPol := .both, startMs := start }

/-- `Capturing` with one record. -/
def open1 (c : Config) (start : TickValue) (r : EdgeRecord) : State :=
  { open0 c start with buf := [(0, r)], count := 1#8, lastTs := r.ts, newEdge := true }

/-- `Ready` with one record. -/
def ready1 (c : Config) (r : EdgeRecord) : State := { open1 c 0 r with state := .ready, armed := false }

/-- A state with its sampled inputs. -/
def sampling (nowMs nowCnt ts : Nat) (s : State) : State :=
  { s with inputs := { nowMs := nowMs, nowCnt := nowCnt, ts := ts } }

/-- The vectors' `C(start_ms, count, last_ts)`, with only the newest record listed. -/
def openN (start : TickValue) (n : Nat) (last : CounterValue) : State :=
  { open0 Config.vector start with
    buf := [(n - 1, fall last)], count := BitVec.ofNat 8 n, lastTs := last, newEdge := true }

/-- The configuration of vector E-6. -/
def tiny : Config := { Config.vector with capacity := 1 }

/-- A configuration whose second record fills the buffer. -/
def small : Config := { Config.vector with capacity := 2 }

/-! ## One step of each instruction (95_test_vectors.md, sections 2.1 to 2.8) -/

/-- I-1. -/
theorem test_init_first_time : (stateAfter (exec .init State.reset)).map (fun t => (statusWord t, t.events)) =
    some (0x0020#16, [.delayInit]) := by decide

/-- I-3. -/
theorem test_init_again_changes_nothing : stateAfter (exec .init (openN 1000 5 400)) = some (openN 1000 5 400) := by
  decide

/-- S-1. -/
theorem test_start_before_init_faults :
    (stateAfter (exec .start State.reset)).map (fun t => (statusWord t, t.fault, t.events)) =
      some (0x0040#16, some .startBeforeInit, []) := by decide

/-- S-2 and S-6. -/
theorem test_start_opens_a_session :
    (stateAfter (exec .start (sampling 0xFFFFFFFF 0 0 (initialised Config.vector)))).map
      (fun t => (statusWord t, t.startMs, t.capPol, t.lineMode, t.events)) =
    some (0x0025#16, 0xFFFFFFFF, .both, .released,
      [.lineDriveLow, .delayMs 2, .lineRelease, .delayUs 30, .counterReset, .captureSetPolarity .both, .captureArm]) := by
  decide

/-- E-2, then E-3. -/
theorem test_edge_appends :
    (stateAfter (exec (.edge true) (sampling 0 0 100 (open0 Config.vector 1000)))).map
        (fun t => (statusWord t, t.buf, t.lastTs)) = some (0x012D#16, [(0, { ts := 100, lvl := true })], 100) ∧
      (stateAfter (exec (.edge false) (sampling 0 0 180 (open1 Config.vector 1000 (rise 100))))).map
        (fun t => (statusWord t, t.buf, t.lastTs)) =
        some (0x022D#16, [(0, { ts := 100, lvl := true }), (1, { ts := 180, lvl := false })], 180) := by decide

/-- E-4 and E-6. -/
theorem test_edge_fills :
    (stateAfter (exec (.edge false) (sampling 0 0 4480 (openN 0 89 4410)))).map (fun t => (statusWord t, t.events)) =
        some (0x5A2A#16, [.captureDisarm]) ∧
      (stateAfter (exec (.edge true) (sampling 0 0 7 (open0 tiny 0)))).map (fun t => (statusWord t, t.events)) =
        some (0x012A#16, [.captureDisarm]) := by decide

/-- V-4 and V-4b, V-6 and V-6b: the silence limit, and across a counter wrap. -/
theorem test_service_silence :
    stateAfter (exec .service (sampling 1007 0x1BF4 0 (openN 1000 82 0x1A00))) =
        some (sampling 1007 0x1BF4 0 (openN 1000 82 0x1A00)) ∧
      (stateAfter (exec .service (sampling 1007 0x1BF5 0 (openN 1000 82 0x1A00)))).map
        (fun t => (statusWord t, t.events)) = some (0x522A#16, [.captureDisarm]) ∧
      stateAfter (exec .service (sampling 1010 0x00F4 0 (openN 1000 1 0xFF00))) =
        some (sampling 1010 0x00F4 0 (openN 1000 1 0xFF00)) ∧
      (stateAfter (exec .service (sampling 1010 0x00F5 0 (openN 1000 1 0xFF00)))).map statusWord =
        some 0x012A#16 := by decide

/-- V-5 and V-5b, V-7: the timeout across a tick wrap, and that it wins. -/
theorem test_service_timeout :
    stateAfter (exec .service (sampling 0x22 0 0 (open0 Config.vector 0xFFFFFFF0))) =
        some (sampling 0x22 0 0 (open0 Config.vector 0xFFFFFFF0)) ∧
      (stateAfter (exec .service (sampling 0x23 0 0 (open0 Config.vector 0xFFFFFFF0)))).map
        (fun t => (statusWord t, t.events)) = some (0x0020#16, [.captureDisarm]) ∧
      (stateAfter (exec .service (sampling 1051 9000 0 (openN 1000 1 10)))).map statusWord = some 0x0128#16 := by decide

/-- D-1 and D-2. -/
theorem test_read_without_a_result :
    (stateAfter (exec .read (openN 1000 5 400))).map (fun t => (statusWord t, t.results)) =
        some (0x052D#16, [0x0000000001#40]) ∧
      (stateAfter (exec .read (initialised Config.vector))).map (fun t => (statusWord t, t.results)) =
        some (0x0020#16, [0x0000000002#40]) := by decide

/-- D-5. -/
theorem test_read_of_one_record :
    (stateAfter (exec .read (ready1 Config.vector (rise 5)))).map (fun t => (statusWord t, t.results)) =
      some (0x0128#16, [0x0000000004#40]) := by decide

/-- X-4 and X-7. -/
theorem test_illegal_word_faults :
    (stateAfter (step { open0 Config.vector 0 with
      arrivals := [{ port := .capture, word := 0x03#8, inputs := { nowMs := 0, nowCnt := 0, ts := 0 } }] })).map
        (fun t => (statusWord t, t.fault)) = some (0x0065#16, some (.illegalCommand .capture 0x03#8)) ∧
      step { State.reset with fault := some .startBeforeInit, arrivals := [Request.make .read 0 0 0] } =
        .fault (.stopped .startBeforeInit) := ⟨by decide, rfl⟩

/-- A step takes the first arrival only, and a block with no arrival is refused by name. -/
theorem test_step_takes_one :
    (stateAfter (step { State.reset with arrivals := [Request.make .read 0 0 0, Request.make .init 0 0 0] })).map
        (fun t => (t.arrivals, t.results)) = some ([Request.make .init 0 0 0], [0x0000000002#40]) ∧
      step State.reset = .refused .noOperation := ⟨by decide, rfl⟩

theorem test_session_state_3_refused : SessionState.ofCode 3#2 = none := by decide

theorem test_buffer_access_outside_faults :
    bufRead 1 (ready1 Config.vector (rise 5)) = .error (.bufReadOutside 1) ∧
      (match bufWrite 2 (rise 5) (open1 Config.vector 0 (rise 5)) with
        | .error f => f = .bufWriteOutside 2
        | .ok _ => False) :=
  ⟨rfl, rfl⟩

/-! ## The frame decoder (95_test_vectors.md, sections 1 and 2.6) -/

/-- F-1, F-2, F-3, F-6. -/
theorem test_pulses :
    pulseWidth Config.vector 0xFFF0 0x0036 = 70 ∧
      pulses Config.vector [rise 10, rise 20, fall 50] = [40, 30] ∧
      pulses Config.vector [fall 5, rise 100, fall 180, rise 230, fall 258] = [80, 28] ∧
      pulses Config.vector [rise 50, fall 50] = [0] := by decide

/-- F-15. -/
theorem test_first_bit_is_most_significant :
    assembleByte [false, false, false, false, false, false, true, false] 0 = 0x02#8 := by decide

/-- V-L1-09 and F-16. -/
theorem test_checksum :
    checksum 0x02#8 0x8C#8 0x01#8 0x04#8 = 0x93#8 ∧ checksum 0xFF#8 0xFF#8 0xFF#8 0xFF#8 = 0xFC#8 := by decide

/-- V-L1-10, F-12 and F-13: the threshold. -/
theorem test_threshold_is_strict :
    [26, 28, 50, 51, 70].map (classify Config.vector) = [false, false, false, true, true] := by decide

/-- The first and last pulses of the listing of 95_test_vectors.md 0.1. -/
theorem test_reference_frame :
    (frameRecords Config.vector 100 (checkedFrame 0x02#8 0x8C#8 0x01#8 0x04#8)).take 4 =
        [rise 100, fall 180, rise 230, fall 258] ∧
      (frameRecords Config.vector 100 (checkedFrame 0x02#8 0x8C#8 0x01#8 0x04#8)).drop 80 = [rise 3650, fall 3720] := by
  decide +kernel

/-- V-L1-04. -/
theorem test_reference_frame_decodes :
    (decodeFrame Config.vector (frameRecords Config.vector 100 (checkedFrame 0x02#8 0x8C#8 0x01#8 0x04#8))).word =
      0x028C010400#40 := by decide +kernel

/-- V-L1-08, F-18 and F-19: sign-magnitude. -/
theorem test_temperature :
    temperatureTenths 0x8032#16 = -50 ∧ temperatureTenths 0xFFCE#16 = -32718 ∧ temperatureTenths 0x8000#16 = 0 ∧
      tSign 0x8000#16 = true ∧ (Result.mk .ok 0x8032#16 0x0190#16).word = 0x0190803200#40 := by decide

/-- Listings of 30_encoding.md R84 and R85. -/
theorem test_assembler :
    assembleOperation Config.vector "SERVICE" [("ms", 1007), ("cnt", 0x1BF5)] =
        .ok [Request.make .service 1007 0x1BF5 0] ∧
      assembleOperation Config.vector "HIPULSE" [("", 65530), ("", 70)] =
        .ok [Request.make (.edge true) 0 0 65530, Request.make (.edge false) 0 0 64] ∧
      assembleOperation Config.vector "EDGE" [("t", 5), ("l", 2)] = .error .badNumber := by decide

theorem test_assembler_text :
    assemble Config.vector "INIT ; set up\nSTART   ms=0x3E8\n\nRISE 5\nREAD" =
      .ok [Request.make .init 0 0 0, Request.make .start 1000 0 0, Request.make (.edge true) 0 0 5,
        Request.make .read 0 0 0] := by decide +kernel

/-- Blanks around a token, a blank inside one, and an equals sign with no name (log 19). -/
theorem test_assembler_operand :
    operand " ms = 10".toList = some ("ms".toList, 10) ∧ operand "ms=10 00".toList = none ∧ operand "=5".toList = none := by
  decide +kernel

/-! ## Witnesses: for every statement with hypotheses, states and operands that meet them -/

theorem inv_initialised (c : Config) : Inv (initialised c) where
  armed_iff := by simp [initialised]
  count_le := by simp [initialised]
  capturing_room := by simp [initialised]
  last_ts_newest := by simp [initialised]
  new_edge_iff := by simp [initialised]
  armed_both := by simp [initialised]
  line_released := rfl
  buf_wf := rfl
  buf_listed := by simp [initialised]
  session_initialised := by simp [initialised]
  ready_nonempty := by simp [initialised]
  in_range := ⟨by simp [initialised], by simp [initialised], by simp [initialised]⟩

theorem inv_reset : Inv State.reset where
  armed_iff := by simp [State.reset]
  count_le := by simp [State.reset]
  capturing_room := by simp [State.reset]
  last_ts_newest := by simp [State.reset]
  new_edge_iff := by simp [State.reset]
  armed_both := by simp [State.reset]
  line_released := rfl
  buf_wf := rfl
  buf_listed := by simp [State.reset]
  session_initialised := by simp [State.reset]
  ready_nonempty := by simp [State.reset]
  in_range := ⟨by simp [State.reset], by simp [State.reset], by simp [State.reset]⟩

theorem inv_open0 (c : Config) (start : TickValue) (hc : 1 ≤ c.capacity) (hs : start < 2 ^ c.tickBits) :
    Inv (open0 c start) where
  armed_iff := by simp [open0]
  count_le := by simp [open0, initialised]
  capturing_room := fun _ => by show 0 < c.capacity; omega
  last_ts_newest := by simp [open0, initialised]
  new_edge_iff := by simp [open0, initialised]
  armed_both := fun _ => rfl
  line_released := rfl
  buf_wf := rfl
  buf_listed := by simp [open0, initialised]
  session_initialised := fun _ => rfl
  ready_nonempty := by simp [open0]
  in_range := ⟨by simp [open0, initialised], Nat.two_pow_pos _, hs⟩

theorem lookup_one (r : EdgeRecord) (i : Nat) : Memory.lookup i [(0, r)] = if i = 0 then some r else none := by
  simp [Memory.lookup]

theorem inv_open1 (c : Config) (start : TickValue) (r : EdgeRecord) (hc : 2 ≤ c.capacity) (hs : start < 2 ^ c.tickBits)
    (hr : r.ts < 2 ^ c.cntBits) : Inv (open1 c start r) where
  armed_iff := by simp [open1, open0]
  count_le := by show 1 ≤ c.capacity; omega
  capturing_room := fun _ => by show 1 < c.capacity; omega
  last_ts_newest := fun _ => ⟨r, rfl, rfl⟩
  new_edge_iff := by simp [open1]
  armed_both := fun _ => rfl
  line_released := rfl
  buf_wf := rfl
  buf_listed := fun i => by
    show (Memory.lookup i [(0, r)]).isSome = true ↔ i < 1
    rw [lookup_one]
    by_cases h : i = 0 <;> simp [h]
  session_initialised := fun _ => rfl
  ready_nonempty := by simp [open1, open0]
  in_range := ⟨fun i x h => by
      have h : Memory.lookup i [(0, r)] = some x := h
      rw [lookup_one] at h
      split at h <;> cases h
      exact hr,
    hr, hs⟩

theorem inv_ready1 (c : Config) (r : EdgeRecord) (hc : 1 ≤ c.capacity) (hr : r.ts < 2 ^ c.cntBits) :
    Inv (ready1 c r) where
  armed_iff := by simp [ready1]
  count_le := hc
  capturing_room := by simp [ready1]
  last_ts_newest := fun _ => ⟨r, rfl, rfl⟩
  new_edge_iff := by simp [ready1, open1]
  armed_both := by simp [ready1]
  line_released := rfl
  buf_wf := rfl
  buf_listed := fun i => by
    show (Memory.lookup i [(0, r)]).isSome = true ↔ i < 1
    rw [lookup_one]
    by_cases h : i = 0 <;> simp [h]
  session_initialised := fun _ => rfl
  ready_nonempty := fun _ => Nat.le_refl 1
  in_range := ⟨fun i x h => by
      have h : Memory.lookup i [(0, r)] = some x := h
      rw [lookup_one] at h
      split at h <;> cases h
      exact hr,
    hr, Nat.two_pow_pos _⟩

/-- `SI`, a session without and with a record, one a record short of full, and a finished one, all in the invariant. -/
theorem inv_witnesses :
    Inv (initialised Config.vector) ∧ Inv (open0 Config.vector 1000) ∧ Inv (open1 Config.vector 1000 (rise 10)) ∧
      Inv (open1 small 1000 (rise 10)) ∧ Inv (ready1 Config.vector (rise 10)) :=
  ⟨inv_initialised _, inv_open0 _ _ (by decide) (by decide), inv_open1 _ _ _ (by decide) (by decide) (by decide),
    inv_open1 _ _ _ (by decide) (by decide) (by decide), inv_ready1 _ _ (by decide) (by decide)⟩

/-- A state about to take the operations `l`. -/
def taking (l : List Request) (s : State) : State := { s with arrivals := l }

theorem inv_taking {s : State} (h : Inv s) (l : List Request) : Inv (taking l s) :=
  ⟨h.armed_iff, h.count_le, h.capturing_room, h.last_ts_newest, h.new_edge_iff, h.armed_both, h.line_released, h.buf_wf,
    h.buf_listed, h.session_initialised, h.ready_nonempty,
    ⟨h.in_range.records, h.in_range.last_ts, h.in_range.start_ms⟩⟩

theorem witness_ResetHoldsTheSpecValues : State.reset = State.resetWith Config.vector := rfl

theorem witness_ConfigurationOutsideConstraintsIsRefused :
    MeetsR10 State.reset.cfg ∧ MeetsR10 tiny ∧ ¬MeetsR10 { Config.vector with capacity := 0 } ∧
      ¬MeetsR10 { Config.vector with maxPulses := 40 } := by
  unfold MeetsR10
  decide

theorem witness_DecodeInvertsEncode : decode .capture 0x0C#8 = .ok (.edge true) := rfl

theorem witness_StepRunsTheDecodedInstruction :
    (taking [Request.make .read 0 0 0] State.reset).cfg.wf = true ∧
      (taking [Request.make .read 0 0 0] State.reset).fault = none ∧
      decode (Request.make .read 0 0 0).port (Request.make .read 0 0 0).word = .ok .read := ⟨by decide, rfl, rfl⟩

theorem witness_PlacedWordRunsAsItself : State.reset.cfg.wf = true ∧ State.reset.fault = none := ⟨by decide, rfl⟩

/-- One word for each condition, and a legal one. -/
theorem witness_IllegalWordFaultsAndNothingElse :
    State.reset.cfg.wf = true ∧ State.reset.fault = none ∧ IllegalOn .foreground 0x05#8 ∧ IllegalOn .capture 0x14#8 ∧
      IllegalOn .foreground 0x0B#8 ∧ IllegalOn .foreground 0x04#8 ∧ IllegalOn .capture 0x03#8 ∧
      ¬IllegalOn .foreground 0x03#8 ∧ ¬IllegalOn .capture 0x0C#8 := by
  unfold IllegalOn
  refine ⟨by decide, rfl, ?_, ?_, ?_, ?_, ?_, ?_, ?_⟩ <;> decide

theorem witness_ModelFaultsAreTwoAndFinal :
    (State.reset.cfg.wf = true ∧ { State.reset with fault := some .startBeforeInit }.fault = some .startBeforeInit) ∧
      (stateAfter (step (taking [Request.make .start 0 0 0] State.reset))).map (·.fault) =
        some (some .startBeforeInit) ∧
      (stateAfter (step (taking [{ Request.make .read 0 0 0 with port := .capture }] State.reset))).map (·.fault) =
        some (some (.illegalCommand .capture 0x03#8)) := by decide

theorem witness_EachStepTakesOneOperation :
    (stateAfter (step (taking [Request.make .read 0 0 0] State.reset))).isSome = true := by decide

theorem witness_InitSetsUpOnce : State.reset.initDone = false ∧ (initialised Config.vector).initDone = true := by decide

theorem witness_StartBeginsASessionFromIdle :
    State.reset.initDone = false ∧
      ((open0 Config.vector 0).initDone = true ∧ (open0 Config.vector 0).state ≠ .idle) ∧
      ((initialised Config.vector).initDone = true ∧ (initialised Config.vector).state = .idle) := by decide

/-- Disarmed; armed and full, which only an unreachable state is; a record that does not fill; one that does. -/
theorem witness_EdgeRecordsOneEdge :
    (State.reset.cfg.capacity ≤ 255 ∧ State.reset.armed = false) ∧
      ((open1 tiny 0 (rise 5)).armed = true ∧ (open1 tiny 0 (rise 5)).cfg.capacity ≤ (open1 tiny 0 (rise 5)).count.toNat) ∧
      ((open1 Config.vector 0 (rise 5)).count.toNat < (open1 Config.vector 0 (rise 5)).cfg.capacity ∧
        (open1 Config.vector 0 (rise 5)).count.toNat + 1 ≠ (open1 Config.vector 0 (rise 5)).cfg.capacity) ∧
      (open1 small 0 (rise 5)).count.toNat + 1 = (open1 small 0 (rise 5)).cfg.capacity := by decide

/-- The limits 50 and 51, 500 and 501; no record; and not Capturing. -/
theorem witness_ServiceDetectsTheEndOfTheSession :
    (initialised Config.vector).state ≠ .capturing ∧ (open0 Config.vector 1000).startMs = 1000 ∧
      TimedOut Config.vector 1051 1000 ∧ ¬TimedOut Config.vector 1050 1000 ∧ (open0 Config.vector 1000).count = 0#8 ∧
      (open1 Config.vector 1000 (rise 10)).count ≠ 0#8 ∧ (open1 Config.vector 1000 (rise 10)).lastTs = 10 ∧
      Silent Config.vector 511 10 ∧ ¬Silent Config.vector 510 10 := by
  unfold TimedOut Silent
  decide

theorem witness_ReadReportsTheOutcome :
    (open0 Config.vector 0).state = .capturing ∧ State.reset.state = .idle ∧
      (ready1 Config.vector (rise 5)).state = .ready ∧
      [rise 5].length = (ready1 Config.vector (rise 5)).count.toNat ∧
      ∀ i (h : i < [rise 5].length), bufRead i (ready1 Config.vector (rise 5)) = .ok [rise 5][i] := by
  refine ⟨rfl, rfl, rfl, rfl, fun i h => ?_⟩
  obtain rfl : i = 0 := by simpa using h
  rfl

/-- SERVICE where nothing but its own fields was ever written, and READ of a record that is held. -/
theorem witness_EveryInstructionCompletes :
    (stateAfter (exec .service { State.reset with state := .capturing, count := 1#8 })).isSome = true ∧
      (ready1 Config.vector (rise 10)).state = .ready ∧
      ∀ j, j < (ready1 Config.vector (rise 10)).count.toNat → ∃ r, bufRead j (ready1 Config.vector (rise 10)) = .ok r := by
  refine ⟨by decide, rfl, fun j h => ⟨rise 10, ?_⟩⟩
  obtain rfl : j = 0 := Nat.lt_one_iff.mp h
  rfl

theorem witness_BeforeInitOnlyStartFaults : Inv State.reset ∧ State.reset.initDone = false := ⟨inv_reset, rfl⟩

theorem witness_InvariantHoldsAtReset : Config.vector.wf = true ∧ tiny.wf = true := by decide

theorem witness_EveryStepKeepsTheInvariant :
    Inv (taking [Request.make (.edge false) 0 0 20] (open1 small 1000 (rise 10))) ∧
      (stateAfter (step (taking [Request.make (.edge false) 0 0 20] (open1 small 1000 (rise 10))))).map (·.state) =
        some .ready := ⟨inv_taking inv_witnesses.2.2.2.1 _, by decide⟩

/-- INIT, START, EDGE with room for one record, then READ: a Ready state that a run reaches, and a step from it. -/
def tinyRun : List Request :=
  [Request.make .init 0 0 0, Request.make .start 0 0 0, Request.make (.edge true) 0 0 7, Request.make .read 0 0 0]

/-- The state after `k` steps of `tinyRun`. -/
def tinyAfter (k : Nat) : Option State := stateAfter (Host.Core.run Sys2Proof.core k (taking tinyRun (State.resetWith tiny)))

theorem next_of_stateAfter {o : Host.Outcome State Fault Refusal} {t : State} (h : stateAfter o = some t) : o = .next t := by
  cases o <;> simp [stateAfter] at h
  rw [h]

theorem reaches_of_run (k : Nat) (s t : State) (h : Host.Core.run Sys2Proof.core k s = .next t) : Reaches s t := by
  induction k generalizing s with
  | zero => cases h; exact .refl _
  | succ k ih =>
    simp only [Host.Core.run] at h
    split at h
    · next u hu =>
      have htail := ih u h
      clear h ih
      induction htail with
      | refl => exact .step (.refl s) hu
      | step _ h2 ih => exact .step ih h2
    · cases h
    · cases h

theorem witness_ReachableStatesMeetTheSpecInvariants :
    tiny.wf = true ∧ ∃ s t, Reaches { State.resetWith tiny with arrivals := tinyRun } s ∧ s.state = .ready ∧
      1 ≤ s.count.toNat ∧ step s = .next t ∧ t.state = .idle := by
  refine ⟨by decide, ?_⟩
  have h3 : (tinyAfter 3).map (fun s => (s.state, s.count)) = some (.ready, 1#8) := by decide
  obtain ⟨s, hs, hv⟩ := Option.map_eq_some_iff.1 h3
  have h4 : ((tinyAfter 3).bind fun s => stateAfter (step s)).map (·.state) = some .idle := by decide
  rw [hs] at h4
  obtain ⟨t, ht, htv⟩ := Option.map_eq_some_iff.1 h4
  refine ⟨s, t, reaches_of_run 3 _ _ (next_of_stateAfter hs), congrArg Prod.fst hv, ?_, next_of_stateAfter ht, htv⟩
  have hc : s.count = 1#8 := congrArg Prod.snd hv
  rw [hc]
  decide

/-- By the fill and by the timeout. -/
theorem witness_CloseDisarmsInTheSameStep :
    (open1 small 1000 (rise 10)).state = .capturing ∧
      (stateAfter (step (taking [Request.make (.edge false) 0 0 20] (open1 small 1000 (rise 10))))).map (·.state) =
        some .ready ∧
      (stateAfter (step (taking [Request.make .service 1051 511 0] (open1 small 1000 (rise 10))))).map (·.state) =
        some .idle := by decide

/-- The three ends of a session: the fill, the silence and the timeout. -/
theorem witness_SessionEndsInOneOfThreeWays :
    Inv (taking [Request.make (.edge false) 0 0 20] (open1 small 1000 (rise 10))) ∧
      Inv (taking [Request.make .service 1001 511 0] (open1 Config.vector 1000 (rise 10))) ∧
      (stateAfter (step (taking [Request.make (.edge false) 0 0 20] (open1 small 1000 (rise 10))))).map (·.state) =
        some .ready ∧
      (stateAfter (step (taking [Request.make .service 1001 511 0] (open1 Config.vector 1000 (rise 10))))).map (·.state) =
        some .ready ∧
      (stateAfter (step (taking [Request.make .service 1051 511 0] (open1 Config.vector 1000 (rise 10))))).map (·.state) =
        some .idle :=
  ⟨inv_taking inv_witnesses.2.2.2.1 _, inv_taking inv_witnesses.2.2.1 _, by decide⟩

theorem witness_SessionBeginsOnlyByStart :
    (taking [Request.make .start 5 0 0] (initialised Config.vector)).state ≠ .capturing ∧
      (stateAfter (step (taking [Request.make .start 5 0 0] (initialised Config.vector)))).map (·.state) =
        some .capturing := by decide

/-- One state for each group of rows, each of a well-formed configuration. -/
theorem witness_TransitionTableRows :
    (Config.vector.wf = true ∧ small.wf = true) ∧
    (Inv (initialised Config.vector) ∧ (initialised Config.vector).initDone = true) ∧
      (Inv (open1 small 1000 (rise 10)) ∧ (open1 small 1000 (rise 10)).initDone = true) ∧
      (Inv (ready1 Config.vector (rise 10)) ∧ (ready1 Config.vector (rise 10)).initDone = true) :=
  ⟨by decide, ⟨inv_witnesses.1, rfl⟩, ⟨inv_witnesses.2.2.2.1, rfl⟩, ⟨inv_witnesses.2.2.2.2, rfl⟩⟩

/-- A READ that gives BUSY, and one that does not. -/
theorem witness_RecoveryAfterReadIsUniform :
    (stateAfter (exec .read (open0 Config.vector 0))).map (fun t => t.results.map codeField) = some [1#3] ∧
      (stateAfter (exec .read (ready1 Config.vector (rise 5)))).map (fun t => (t.results.map codeField, t.initDone)) =
        some ([4#3], true) := by decide

/-- A step that writes fields of the interrupt, and one that writes fields of the foreground. -/
theorem witness_WritersOfEachField :
    (stateAfter (exec (.edge true) (sampling 0 0 7 (open0 tiny 0)))).map
        (fun t => (t.buf ≠ [], t.count ≠ 0#8, t.lastTs, t.newEdge, t.state)) =
        some (True, True, 7, true, .ready) ∧
      (stateAfter (exec .start (sampling 5 0 0 (initialised tiny)))).map (fun t => (t.startMs, t.capPol, t.armed)) =
        some (5, .both, true) := by
  refine ⟨?_, by decide⟩
  simp [stateAfter, exec, execEdge_eq, sampling, edgeTs, open0, initialised, tiny, Config.vector, edgeRecord, Memory.store]

/-- `armed` rises, and falls. -/
theorem witness_ArmedFollowsTheReportedEvents :
    Inv (initialised Config.vector) ∧ Inv (open1 small 1000 (rise 10)) ∧
      (stateAfter (exec .start (initialised Config.vector))).map (fun t => (t.events, t.armed)) =
        some ((initialised Config.vector).events ++ wakeEvents Config.vector, true) ∧
      (stateAfter (exec (.edge true) (open1 small 1000 (rise 10)))).map (fun t => (t.events, t.armed)) =
        some ((open1 small 1000 (rise 10)).events ++ [.captureDisarm], false) :=
  ⟨inv_witnesses.1, inv_witnesses.2.2.2.1, by decide⟩

/-- One step for each list of events. -/
theorem witness_EventsOfEachOperation :
    (stateAfter (exec .init State.reset)).map (·.events) = some (State.reset.events ++ [.delayInit]) ∧
      (stateAfter (exec .start (initialised small))).map (·.events) = some ((initialised small).events ++ wakeEvents small) ∧
      (stateAfter (exec (.edge true) (open1 small 1000 (rise 10)))).map (·.events) =
        some ((open1 small 1000 (rise 10)).events ++ [.captureDisarm]) ∧
      (stateAfter (exec .service (sampling 1051 0 0 (open1 small 1000 (rise 10))))).map (·.events) =
        some ((open1 small 1000 (rise 10)).events ++ [.captureDisarm]) ∧
      (stateAfter (exec .service State.reset)).map (·.events) = some State.reset.events := by decide

theorem witness_ObservationOnlyGrows :
    (stateAfter (step (taking [Request.make .read 0 0 0] State.reset))).map (·.results) = some [timedOutWord] := by decide

/-- A run that keeps INIT's effect, and a faulted state. -/
theorem witness_NoStepResetsTheBlock :
    Reaches (initialised tiny) (initialised tiny) ∧ (initialised tiny).initDone = true ∧
      { State.reset with fault := some .startBeforeInit }.fault ≠ none := ⟨.refl _, rfl, by decide⟩

theorem witness_SideEffectsAndIdempotency :
    (stateAfter (exec .init State.reset)).isSome = true ∧
      (stateAfter (exec .service (open1 Config.vector 1000 (rise 10)))).isSome = true ∧
      ((stateAfter (exec .read State.reset)).isSome = true ∧ State.reset.state ≠ .ready) ∧
      ((stateAfter (exec .read (ready1 Config.vector (rise 5)))).isSome = true ∧
        (ready1 Config.vector (rise 5)).state = .ready) := by decide

theorem witness_StartInReadyKeepsTheResult :
    (ready1 Config.vector (rise 5)).state = .ready ∧ (ready1 Config.vector (rise 5)).initDone = true ∧
      stateAfter (exec .start (ready1 Config.vector (rise 5))) = some (ready1 Config.vector (rise 5)) := by decide

theorem witness_FillAgainstTimeoutRace :
    Inv (open1 small 1000 (rise 10)) ∧ (open1 small 1000 (rise 10)).cfg.wf = true ∧
      (open1 small 1000 (rise 10)).fault = none ∧ (open1 small 1000 (rise 10)).state = .capturing ∧
      (open1 small 1000 (rise 10)).startMs = 1000 ∧
      (open1 small 1000 (rise 10)).count.toNat + 1 = (open1 small 1000 (rise 10)).cfg.capacity ∧
      Issues (Request.make (.edge true) 0 0 20) (.edge true) ∧ Issues (Request.make .service 1051 0 0) .service ∧
      TimedOut small (1051 % 2 ^ small.tickBits) 1000 := by
  refine ⟨inv_witnesses.2.2.2.1, by decide, rfl, rfl, rfl, by decide, rfl, rfl, ?_⟩
  unfold TimedOut
  decide

theorem witness_EdgeAgainstSilenceRace :
    Inv (open1 Config.vector 1000 (rise 10)) ∧ (open1 Config.vector 1000 (rise 10)).cfg.wf = true ∧
      (open1 Config.vector 1000 (rise 10)).fault = none ∧ (open1 Config.vector 1000 (rise 10)).state = .capturing ∧
      (open1 Config.vector 1000 (rise 10)).count ≠ 0#8 ∧
      (open1 Config.vector 1000 (rise 10)).count.toNat + 1 < Config.vector.capacity ∧
      Issues (Request.make (.edge true) 0 0 20) (.edge true) ∧ Issues (Request.make .service 1001 511 0) .service ∧
      (open1 Config.vector 1000 (rise 10)).startMs = 1000 ∧ (open1 Config.vector 1000 (rise 10)).lastTs = 10 ∧
      ¬TimedOut Config.vector (1001 % 2 ^ Config.vector.tickBits) 1000 ∧
      Silent Config.vector (511 % 2 ^ Config.vector.cntBits) 10 ∧ ¬Silent Config.vector (511 % 2 ^ Config.vector.cntBits) 20 ∧
      Silent Config.vector (511 % 2 ^ Config.vector.cntBits) 5 := by
  refine ⟨inv_witnesses.2.2.1, by decide, rfl, rfl, by decide, by decide, rfl, rfl, rfl, rfl, ?_⟩
  unfold TimedOut Silent
  decide

/-- One edge among a READ and an INIT. -/
def mixed : List Request := [Request.make .read 0 0 0, edgeRequest (rise 10), Request.make .init 0 0 0]

theorem mixed_has_no_service : ∀ r ∈ mixed, ¬Issues r .service := by
  intro r hr
  simp only [mixed, List.mem_cons, List.not_mem_nil, or_false] at hr
  rcases hr with rfl | rfl | rfl <;> (unfold Issues; decide)

theorem mixed_is_legal : LegalArrivals mixed := by
  unfold LegalArrivals
  decide

theorem witness_AnyInterleavingRecordsTheEdges :
    Inv (open0 Config.vector 1000) ∧ (open0 Config.vector 1000).cfg.wf = true ∧ (open0 Config.vector 1000).fault = none ∧
      (open0 Config.vector 1000).state = .capturing ∧ LegalArrivals mixed ∧
      (∀ r ∈ mixed, ¬Issues r .service) ∧ portArrivals .capture mixed = [edgeRequest (rise 10)] ∧
      (open0 Config.vector 1000).count.toNat + [edgeRequest (rise 10)].length < Config.vector.capacity :=
  ⟨inv_witnesses.2.1, by decide, rfl, rfl, mixed_is_legal, mixed_has_no_service, by decide, by decide⟩

/-- The line has two transitions, of which one is delivered. -/
theorem witness_BufferIsASubsequenceOfTheLine :
    Inv (open0 Config.vector 1000) ∧ (open0 Config.vector 1000).cfg.wf = true ∧ (open0 Config.vector 1000).fault = none ∧
      (open0 Config.vector 1000).state = .capturing ∧ LegalArrivals mixed ∧ (∀ r ∈ mixed, ¬Issues r .service) ∧
      DeliversFrom [rise 10, fall 30] (portArrivals .capture mixed) ∧ (∀ r ∈ [rise 10, fall 30], r.ts < 2 ^ 16) ∧
      (open0 Config.vector 1000).count = 0#8 ∧ (portArrivals .capture mixed).length < Config.vector.capacity :=
  ⟨inv_witnesses.2.1, by decide, rfl, rfl, mixed_is_legal, mixed_has_no_service, ⟨[rise 10], by decide, by decide⟩,
    by decide, by decide, by decide⟩

theorem witness_DeliveredEdgeIsRecorded :
    Inv (taking [edgeRequest (rise 20)] (open1 Config.vector 1000 (rise 10))) ∧
      EdgesWhileArmed 1 (taking [edgeRequest (rise 20)] (open1 Config.vector 1000 (rise 10))) ∧
      Issues (edgeRequest (rise 20)) (.edge true) ∧
      (stateAfter (step (taking [edgeRequest (rise 20)] (open1 Config.vector 1000 (rise 10))))).isSome = true :=
  ⟨inv_taking inv_witnesses.2.2.1 _, ⟨fun _ _ _ _ _ => rfl, fun _ _ => trivial⟩, rfl, by decide⟩

/-- A pulse of 10 units and one across the counter's wrap; a silence gap of 500 units and one of a whole period; ticks
across their wrap. -/
theorem witness_MeasuredIntervalsUnderTheContract :
    CountsSinceReset Config.vector [5, 15] [edgeRequest (rise 5), edgeRequest (fall 15)] ∧
      CountsSinceReset Config.vector [65530, 65540] [edgeRequest (rise 65530), edgeRequest (fall 4)] ∧
      CountsSinceReset Config.vector [5, 505] [edgeRequest (rise 5), Request.make .service 0 505 0] ∧
      CountsSinceReset Config.vector [5, 65541] [edgeRequest (rise 5), Request.make .service 0 5 0] ∧
      MonotonicTick Config.vector [7, 4294967298] [Request.make .start 7 0 0, Request.make .service 2 0 0] ∧
      Issues (edgeRequest (rise 5)) (.edge true) ∧ Issues (edgeRequest (fall 15)) (.edge false) ∧
      Issues (Request.make .start 7 0 0) .start ∧ Issues (Request.make .service 0 505 0) .service := by
  refine ⟨?_, ?_, ?_, ?_, ?_, rfl, rfl, rfl, rfl⟩ <;>
    first | (unfold CountsSinceReset SampledInOrder; decide) | (unfold MonotonicTick; decide)

/-- The contract admits an EDGE taken after a SERVICE that sampled the counter later than the edge (60_exceptions.md
R206), and no SERVICE sampled before an edge that was already taken. -/
theorem test_counter_contract_admits_a_late_edge :
    CountsSinceReset Config.vector [15, 10] [Request.make .service 0 15 0, edgeRequest (rise 10)] ∧
      ¬CountsSinceReset Config.vector [10, 9] [edgeRequest (rise 10), Request.make .service 0 9 0] := by
  unfold CountsSinceReset SampledInOrder
  decide

/-- A leading falling and a trailing rising record around two pulses. -/
theorem witness_AlternatingListsGiveOneWidthPerPair :
    [fall 5, rise 100, fall 180, rise 230, fall 258, rise 300] =
      [fall 5] ++ ([(100, 180), (230, 258)].map fun p => [rise p.1, fall p.2]).flatten ++ [rise 300] := by decide

theorem witness_CollectionCapNeverChangesAResult : 41 ≤ Config.vector.maxPulses ∧ 41 ≤ 41 := by decide

/-- 40 and 41 high pulses. -/
theorem witness_FewerThanFortyOneWidthsIsFramingError :
    (pulses Config.vector (pulseTrain Config.vector 0 (List.replicate 40 28))).length = 40 ∧
      (pulses Config.vector (pulseTrain Config.vector 0 (List.replicate 41 28))).length = 41 := by decide +kernel

theorem witness_DataPulsesAreClassifiedStrictly :
    41 ≤ (List.replicate 41 50).length ∧ 39 + 1 < (List.replicate 41 50).length ∧ 39 < 40 := by decide

theorem witness_BitsArePackedMostSignificantFirst : (List.replicate 40 true).length = 40 := by decide

/-- Bit 0 of the document's frame flipped. -/
theorem witness_ChecksumFindsEverySingleFlip :
    (frameResult (checkedFrame 0x02#8 0x8C#8 0x01#8 0x04#8)).code = .ok ∧
      ∀ j, j < 40 → ({ checkedFrame 0x02#8 0x8C#8 0x01#8 0x04#8 with b0 := 0x82#8 } : Frame).bit j =
        ((checkedFrame 0x02#8 0x8C#8 0x01#8 0x04#8).bit j != decide (j = 0)) := by decide +kernel

theorem witness_ResultWordLayout :
    (stateAfter (exec .read (ready1 Config.vector (rise 5)))).isSome = true ∧
      (stateAfter (exec .init State.reset)).isSome = true := by decide

theorem witness_FieldsAreBigEndianAndUnchanged :
    (frameResult (checkedFrame 0xFF#8 0xFF#8 0xFF#8 0xFF#8)).code = .ok := by decide

theorem witness_FloatSignIsAppliedAfterScaling : tSign 0x0104#16 = false ∧ tSign 0x8032#16 = true := by decide

theorem witness_TemperatureIsSignMagnitude :
    tSign 0x7FFF#16 = false ∧ tSign 0x8000#16 = true ∧
      (frameResult (checkedFrame 0x00#8 0x00#8 0x80#8 0x00#8)).code = .ok := by decide

/-- Two frames whose ack pulses differ. -/
theorem witness_ResultDependsOnTheFirstFortyOneWidths :
    41 ≤ (pulses Config.vector (pulseTrain Config.vector 0 (80 :: List.replicate 40 28))).length ∧
      ((pulses Config.vector (pulseTrain Config.vector 0 (80 :: List.replicate 40 28))).take 41).drop 1 =
        ((pulses Config.vector (pulseTrain Config.vector 9 (0 :: List.replicate 40 28))).take 41).drop 1 := by decide +kernel

theorem witness_FewestRecordsThatDecode :
    (decodeFrame Config.vector
      (([(0, 80)] ++ List.replicate 40 (0, 28)).map fun p : Nat × Nat => [rise p.1, fall p.2]).flatten).code ≠ .framingError := by
  decide +kernel

theorem witness_FrameDecodesToItsOwnBytes :
    Config.vector.wf = true ∧ 28 ≤ Config.vector.bitThreshold ∧ Config.vector.bitThreshold < 70 ∧
      70 < 2 ^ Config.vector.cntBits := by decide

/-- The transaction P2: the last edge at 3720, SERVICE at 4221 counter units, 6 ticks after START. -/
theorem witness_WholeTransactionReportsTheFrame :
    Config.vector.wf = true ∧ 82 ≤ Config.vector.capacity ∧ 28 ≤ Config.vector.bitThreshold ∧
      Config.vector.bitThreshold < 70 ∧ 70 < 2 ^ Config.vector.cntBits ∧ 100 < 2 ^ Config.vector.cntBits ∧
      (frameRecords Config.vector 100 (checkedFrame 0x02#8 0x8C#8 0x01#8 0x04#8)).getLast? = some (fall 3720) ∧
      ¬TimedOut Config.vector (1006 % 2 ^ Config.vector.tickBits) (1000 % 2 ^ Config.vector.tickBits) ∧
      Silent Config.vector (4221 % 2 ^ Config.vector.cntBits) 3720 := by
  unfold TimedOut Silent
  decide +kernel

/-- The same at CAPACITY = 82, where the last edge fills the buffer. -/
theorem witness_WholeTransaction_fill :
    Config.wf { Config.vector with capacity := 82 } = true ∧ 82 ≤ ({ Config.vector with capacity := 82 } : Config).capacity ∧
      28 ≤ Config.vector.bitThreshold ∧ Config.vector.bitThreshold < 70 ∧ 70 < 2 ^ Config.vector.cntBits ∧
      (frameRecords { Config.vector with capacity := 82 } 100 (checkedFrame 0x02#8 0x8C#8 0x01#8 0x04#8)).getLast? =
        some (fall 3720) ∧
      ¬TimedOut { Config.vector with capacity := 82 } (1006 % 2 ^ 32) (1000 % 2 ^ 32) ∧
      Silent { Config.vector with capacity := 82 } (4221 % 2 ^ 16) 3720 := by
  unfold TimedOut Silent
  decide +kernel

theorem witness_LateServiceLosesTheFrame :
    (open1 Config.vector 1000 (rise 10)).cfg.wf = true ∧ (open1 Config.vector 1000 (rise 10)).fault = none ∧
      (open1 Config.vector 1000 (rise 10)).state = .capturing ∧ (open1 Config.vector 1000 (rise 10)).startMs = 1000 ∧
      Issues (Request.make .service 1051 0 0) .service ∧ Issues (Request.make .read 0 0 0) .read ∧
      TimedOut Config.vector (1051 % 2 ^ Config.vector.tickBits) 1000 := by
  refine ⟨by decide, rfl, rfl, rfl, rfl, rfl, ?_⟩
  unfold TimedOut
  decide

theorem witness_StrayEdgeGivesFramingError :
    Inv (open1 Config.vector 1000 (rise 10)) ∧ (open1 Config.vector 1000 (rise 10)).cfg.wf = true ∧
      (open1 Config.vector 1000 (rise 10)).fault = none ∧ (open1 Config.vector 1000 (rise 10)).state = .capturing ∧
      (open1 Config.vector 1000 (rise 10)).count ≠ 0#8 ∧ (open1 Config.vector 1000 (rise 10)).count.toNat < 42 ∧
      (open1 Config.vector 1000 (rise 10)).startMs = 1000 ∧ (open1 Config.vector 1000 (rise 10)).lastTs = 10 ∧
      Issues (Request.make .service 1001 511 0) .service ∧ Issues (Request.make .read 0 0 0) .read ∧
      ¬TimedOut Config.vector (1001 % 2 ^ Config.vector.tickBits) 1000 ∧
      Silent Config.vector (511 % 2 ^ Config.vector.cntBits) 10 := by
  refine ⟨inv_witnesses.2.2.1, by decide, rfl, rfl, by decide, by decide, rfl, rfl, rfl, rfl, ?_⟩
  unfold TimedOut Silent
  decide

theorem witness_FillAgainstSilenceRace :
    Inv (open1 small 1000 (rise 10)) ∧ (open1 small 1000 (rise 10)).cfg.wf = true ∧
      (open1 small 1000 (rise 10)).fault = none ∧ (open1 small 1000 (rise 10)).state = .capturing ∧
      (open1 small 1000 (rise 10)).count ≠ 0#8 ∧
      (open1 small 1000 (rise 10)).count.toNat + 1 = (open1 small 1000 (rise 10)).cfg.capacity ∧
      Issues (Request.make (.edge true) 0 0 20) (.edge true) ∧ Issues (Request.make .service 1001 511 0) .service ∧
      (open1 small 1000 (rise 10)).startMs = 1000 ∧ (open1 small 1000 (rise 10)).lastTs = 10 ∧
      ¬TimedOut small (1001 % 2 ^ small.tickBits) 1000 ∧ Silent small (511 % 2 ^ small.cntBits) 10 := by
  refine ⟨inv_witnesses.2.2.2.1, by decide, rfl, rfl, by decide, by decide, rfl, rfl, rfl, rfl, ?_⟩
  unfold TimedOut Silent
  decide

/-- A READ and an edge, then a SERVICE at the first tick after the limit. -/
def polled : List Request := [Request.make .read 0 0 0, edgeRequest (rise 20), Request.make .service 1051 0 0]

theorem witness_PollingEndsTheSession :
    Inv (open1 Config.vector 1000 (rise 10)) ∧ (open1 Config.vector 1000 (rise 10)).cfg.wf = true ∧
      (open1 Config.vector 1000 (rise 10)).fault = none ∧ (open1 Config.vector 1000 (rise 10)).state = .capturing ∧
      (open1 Config.vector 1000 (rise 10)).startMs = 1000 ∧ LegalArrivals polled ∧
      (∀ r ∈ polled, ¬Issues r .start) ∧ KeepsPolling 2 1 (taking polled (open1 Config.vector 1000 (rise 10))) ∧
      (∀ r ∈ polled, Issues r .service → TimedOut Config.vector (r.inputs.nowMs % 2 ^ Config.vector.tickBits) 1000) := by
  refine ⟨inv_witnesses.2.2.1, by decide, rfl, rfl, rfl, by unfold LegalArrivals; decide, ?_, ⟨?_, fun _ _ => trivial⟩, ?_⟩
  · unfold Issues
    decide
  · intro _
    exact ⟨Request.make .service 1051 0 0, by decide, rfl⟩
  · unfold Issues TimedOut
    decide

theorem witness_BlocksShareNothing :
    ∃ t, stepBlock 1 [State.reset, taking [Request.make .read 0 0 0] State.reset] = some (.next [State.reset, t]) :=
  ⟨_, rfl⟩

end Sys2Proof.Tests
end

section
/-! PROOF. The STATUS view's layout and the codes of the session state (10_state.md R21, R34). -/

namespace Sys2Proof.Machine

/-! ## The codes of the session state and the LINE bit -/

@[simp] theorem SessionState.ofCode_code (st : SessionState) : SessionState.ofCode st.code = some st := by
  cases st <;> rfl

@[simp] theorem LineMode.bit_eq_true_iff (m : LineMode) : m.bit = true ↔ m = .driveLow := by
  cases m <;> simp [LineMode.bit]

/-! ## The two fields of the STATUS view that are wider than one bit -/

theorem statusWord_extractLsb'_state (s : State) : (statusWord s).extractLsb' 0 2 = s.state.code := by
  refine BitVec.eq_of_getLsbD_eq fun i hi => ?_
  simp [statusWord_getLsbD, hi]

theorem statusWord_extractLsb'_count (s : State) : (statusWord s).extractLsb' 8 8 = s.count := by
  refine BitVec.eq_of_getLsbD_eq fun i hi => ?_
  have bit : (statusWord s).getLsbD (8 + i) = s.count.getLsbD i := by
    rw [statusWord_getLsbD]
    iterate 7 rw [if_neg (by omega)]
    rw [Nat.add_sub_cancel_left]
  simp [bit, hi]

end Sys2Proof.Machine

namespace Sys2Proof.Proofs

open Sys2Proof.Machine

/-- Settles O2: the two wide fields by their own lemmas, each flag as its bit in `statusWord_getLsbD`. -/
theorem statusViewLayout : Obligations.StatusViewLayout := by
  intro s
  refine ⟨statusWord_extractLsb'_state s, ?armed, ?newEdge, ?line, ?initDone, ?fault, ?zero,
    statusWord_extractLsb'_count s⟩
  case armed => exact statusWord_getLsbD s 2
  case newEdge => exact statusWord_getLsbD s 3
  case line =>
    rw [statusWord_getLsbD]
    exact LineMode.bit_eq_true_iff s.lineMode
  case initDone => exact statusWord_getLsbD s 5
  case fault =>
    rw [statusWord_getLsbD]
    exact Option.isSome_iff_ne_none
  case zero => exact statusWord_getLsbD s 7

/-- Settles O3: reading a code back is `SessionState.ofCode_code`; the single codes are the two tables' own rows. -/
theorem sessionStateCodes : Obligations.SessionStateCodes :=
  ⟨rfl, rfl, rfl, SessionState.ofCode_code, by decide⟩

end Sys2Proof.Proofs
end

section
/-! PROOF. The command word by its fields, the opcode map and the illegal words, and the layout of the result word with
its temperature field (30_encoding.md R70 to R77, R81). -/

namespace Sys2Proof

/-! ## The fields of a command word (30_encoding.md R70) -/

@[simp] theorem zField_commandWord (z : BitVec 4) (l : Bool) (op : BitVec 3) : zField (commandWord z l op) = z :=
  BitVec.extractLsb'_append_eq_left

@[simp] theorem opField_commandWord (z : BitVec 4) (l : Bool) (op : BitVec 3) : opField (commandWord z l op) = op :=
  (BitVec.extractLsb'_append_eq_of_add_le (xlo := BitVec.ofBool l ++ op) (by decide)).trans
    BitVec.extractLsb'_append_eq_right

@[simp] theorem levelField_commandWord (z : BitVec 4) (l : Bool) (op : BitVec 3) :
    levelField (commandWord z l op) = l := by
  change BitVec.getLsbD (w := 4 + (1 + 3)) _ 3 = l
  rw [commandWord, BitVec.getLsbD_append, BitVec.getLsbD_append]
  exact BitVec.getLsbD_ofBool l 0

/-- The three fields are the whole word. -/
theorem commandWord_fields (w : CommandWord) : commandWord (zField w) (levelField w) (opField w) = w := by
  have level : BitVec.ofBool (levelField w) = w.extractLsb' 3 1 := by
    refine BitVec.eq_of_getLsbD_eq fun i hi => ?_
    obtain rfl : i = 0 := by omega
    simp [levelField]
  have low : BitVec.ofBool (levelField w) ++ opField w = w.extractLsb' 0 4 := by
    rw [level]
    exact BitVec.extractLsb'_append_extractLsb'_eq_extractLsb' rfl
  unfold commandWord
  rw [low]
  exact (BitVec.extractLsb'_append_extractLsb'_eq_extractLsb' rfl).trans BitVec.extractLsb'_eq_self

theorem eq_commandWord_iff (w : CommandWord) (z : BitVec 4) (l : Bool) (op : BitVec 3) :
    w = commandWord z l op ↔ zField w = z ∧ levelField w = l ∧ opField w = op := by
  constructor
  · rintro rfl
    simp
  · rintro ⟨rfl, rfl, rfl⟩
    exact (commandWord_fields w).symm

/-- A mask applies to each field by itself. -/
theorem commandWord_and (z z' : BitVec 4) (l l' : Bool) (op op' : BitVec 3) :
    commandWord z l op &&& commandWord z' l' op' = commandWord (z &&& z') (l && l') (op &&& op') := by
  unfold commandWord
  rw [← BitVec.ofBool_and_ofBool, ← BitVec.and_append]
  exact BitVec.and_append

/-! ## The rows of the opcode map (30_encoding.md R73) -/

theorem foregroundInstr_eq_some_iff (op : BitVec 3) (i : Instr) :
    foregroundInstr op = some i ↔ i.port = .foreground ∧ op = i.op := by
  cases i with
  | edge l => revert op; cases l <;> decide
  | _ => revert op; decide

/-- An instruction of the foreground port has L = 0. -/
theorem Instr.levelBit_of_foreground {i : Instr} (h : i.port = .foreground) : i.levelBit = false := by
  cases i with
  | edge l => cases h
  | _ => rfl

@[simp] theorem decode_encode (i : Instr) : decode i.port (encode i) = .ok i := by
  cases i with
  | init => exact Laws.RoundTrip.init.2
  | start => exact Laws.RoundTrip.start.2
  | service => exact Laws.RoundTrip.service.2
  | read => exact Laws.RoundTrip.read.2
  | edge l => exact (Laws.RoundTrip.edge l).2

/-- A word the decoder answers stands on the port of its row and has the fields of that row. -/
theorem fields_of_decode {p : Port} {w : CommandWord} {i : Instr} (h : decode p w = .ok i) :
    p = i.port ∧ zField w = 0#4 ∧ levelField w = i.levelBit ∧ opField w = i.op := by
  unfold decode at h
  split at h
  · cases h
  · next hz =>
    have hz : zField w = 0#4 := not_not.mp hz
    split at h
    · next hop => cases p <;> cases h; exact ⟨rfl, hz, rfl, hop⟩
    · split at h
      · cases h
      · next j hj =>
        obtain ⟨hport, hop⟩ := (foregroundInstr_eq_some_iff _ _).1 hj
        split at h
        · cases h
        · next hl =>
          have hl : levelField w = j.levelBit := by simpa [Instr.levelBit_of_foreground hport] using hl
          cases p <;> cases h; exact ⟨hport.symm, hz, hl, hop⟩

/-- The decoder answers `i` on the port of its row, at its own word, and nowhere else. -/
theorem decode_eq_ok_iff (p : Port) (w : CommandWord) (i : Instr) :
    decode p w = .ok i ↔ p = i.port ∧ w = encode i := by
  constructor
  · intro h
    obtain ⟨hp, fields⟩ := fields_of_decode h
    exact ⟨hp, (eq_commandWord_iff _ _ _ _).2 fields⟩
  · rintro ⟨rfl, rfl⟩
    exact decode_encode i

/-- The mask of INIT, START, SERVICE and READ, 0xFF, keeps the whole word. -/
theorem and_foregroundMask (w : CommandWord) : w &&& 0xFF#8 = w := BitVec.and_allOnes

/-- The mask of EDGE, 0xF7, keeps Z and OP and clears L. -/
theorem and_edgeMask (w : CommandWord) : w &&& 0xF7#8 = commandWord (zField w) false (opField w) := by
  have mask : (0xF7#8 : CommandWord) = commandWord (BitVec.allOnes 4) false (BitVec.allOnes 3) := rfl
  conv_lhs => rw [mask, ← commandWord_fields w, commandWord_and]
  rw [BitVec.and_allOnes, BitVec.and_allOnes, Bool.and_false]

/-- The row of EDGE: its mask and match, with L free. -/
theorem eq_encode_edge_iff (w : CommandWord) (l : Bool) :
    w = encode (.edge l) ↔ w &&& 0xF7#8 = 0x04#8 ∧ w.getLsbD 3 = l := by
  have matched : (0x04#8 : CommandWord) = commandWord 0#4 false edgeOp := rfl
  change _ ↔ _ ∧ levelField w = l
  rw [and_edgeMask, matched, eq_commandWord_iff, encode, eq_commandWord_iff]
  simp [Instr.levelBit, Instr.op, and_assoc, and_comm]

/-! ## The illegal words (30_encoding.md R74) -/

/-- The conditions of R74 with the fields by their names. -/
theorem illegalOn_iff (p : Port) (w : CommandWord) :
    Claims.IllegalOn p w ↔ 5 ≤ (opField w).toNat ∨ zField w ≠ 0#4 ∨ (levelField w = true ∧ opField w ≠ edgeOp) ∨
      (opField w = edgeOp ∧ p = .foreground) ∨ (opField w ≠ edgeOp ∧ p = .capture) := Iff.rfl

/-- No row of the map is illegal. -/
theorem not_illegalOn_of_decode {p : Port} {w : CommandWord} {i : Instr} (h : decode p w = .ok i) :
    ¬Claims.IllegalOn p w := by
  obtain ⟨rfl, hz, hl, hop⟩ := fields_of_decode h
  rw [illegalOn_iff, hz, hl, hop]
  cases i <;> simp [Instr.port, Instr.op, Instr.levelBit, edgeOp]

/-- The OPs that are not reserved, other than EDGE's, are those of the foreground rows. -/
theorem exists_foregroundInstr (op : BitVec 3) : op.toNat < 5 → op ≠ edgeOp → ∃ i, foregroundInstr op = some i := by
  simp only [← Option.isSome_iff_exists]
  revert op
  decide

/-- A word that no condition of R74 forbids is a row of the map. -/
theorem exists_decode_of_not_illegalOn {p : Port} {w : CommandWord} (h : ¬Claims.IllegalOn p w) :
    ∃ i, decode p w = .ok i := by
  simp only [illegalOn_iff, not_or, not_and, not_not, not_le] at h
  obtain ⟨hlt, hz, hlevel, hforeground, hcapture⟩ := h
  unfold decode
  cases p with
  | capture =>
    have hop : opField w = edgeOp := by simpa using hcapture
    exact ⟨.edge (levelField w), by simp [hz, hop]⟩
  | foreground =>
    have hop : opField w ≠ edgeOp := by simpa using hforeground
    have hl : ¬levelField w = true := fun hl => hop (hlevel hl)
    obtain ⟨i, hi⟩ := exists_foregroundInstr _ hlt hop
    exact ⟨i, by simp [hz, hop, hi, hl]⟩

theorem exists_decode_error_iff (p : Port) (w : CommandWord) :
    (∃ e, decode p w = .error e) ↔ Claims.IllegalOn p w := by
  constructor
  · rintro ⟨e, he⟩
    by_contra legal
    obtain ⟨i, hi⟩ := exists_decode_of_not_illegalOn legal
    rw [he] at hi
    cases hi
  · intro illegal
    cases h : decode p w with
    | error e => exact ⟨e, rfl⟩
    | ok i => exact absurd illegal (not_illegalOn_of_decode h)

end Sys2Proof

namespace Sys2Proof.Machine

/-- A step whose next operation does not decode takes it and records the fault. -/
theorem step_of_decode_error {s : State} {r : Request} {rest : List Request} {e : Reject} (hw : s.cfg.wf = true)
    (hf : s.fault = none) (ha : s.arrivals = r :: rest) (hd : decode r.port r.word = .error e) :
    step s = raiseModelFault (.illegalCommand r.port r.word) (accept r rest s) := by
  unfold step
  rw [if_pos hw, hf, ha]
  simp only [hd]

/-! ## The fields of a result word (30_encoding.md R76) -/

section
variable (r : Result)

@[simp] theorem codeField_word : codeField r.word = r.code.bits := by
  refine BitVec.eq_of_getLsbD_eq fun i hi => ?_
  simp [codeField, Result.word_getLsbD, hi]

@[simp] theorem word_extractLsb'_reserved : r.word.extractLsb' 3 5 = 0#5 := by
  refine BitVec.eq_of_getLsbD_eq fun i hi => ?_
  simp [Result.word_getLsbD, hi, show 3 + i < 8 by omega]

@[simp] theorem tRawField_word : tRawField r.word = r.tRaw := by
  refine BitVec.eq_of_getLsbD_eq fun i hi => ?_
  simp [tRawField, Result.word_getLsbD, hi, show ¬8 + i < 3 by omega, show 8 + i < 24 by omega]

@[simp] theorem hRawField_word : hRawField r.word = r.hRaw := by
  refine BitVec.eq_of_getLsbD_eq fun i hi => ?_
  simp [hRawField, Result.word_getLsbD, hi, show ¬24 + i < 3 by omega, show ¬24 + i < 8 by omega]

end

/-! ## Data only under OK (30_encoding.md R76, 41_frame_decoder.md R164) -/

theorem frameResult_of_ok {f : Frame} (h : (frameResult f).code = .ok) :
    frameResult f = { code := .ok, tRaw := bigEndian f.b2 f.b3, hRaw := bigEndian f.b0 f.b1 } := by
  unfold frameResult at h ⊢
  split
  · rfl
  · next bad => simp [bad, Result.bare] at h

theorem frameResult_of_not_ok {f : Frame} (h : (frameResult f).code ≠ .ok) :
    frameResult f = Result.bare .checksumMismatch := by
  unfold frameResult at h ⊢
  split
  · next good => simp [good] at h
  · rfl

/-- A decoded result without the code OK is a bare code. -/
theorem decodeFrame_of_not_ok {c : Config} {rs : List EdgeRecord} (h : (decodeFrame c rs).code ≠ .ok) :
    decodeFrame c rs = Result.bare (decodeFrame c rs).code := by
  unfold decodeFrame at h ⊢
  split
  · next enough =>
    rw [if_pos enough] at h
    rw [frameResult_of_not_ok h]
    rfl
  · rfl

/-- Every READ returns one word, that of a result which is a bare code unless the code is OK. -/
theorem execRead_results {s t : State} (h : execRead s = .next t) :
    ∃ r : Result, t.results = s.results ++ [r.word] ∧ (r.code ≠ .ok → r = Result.bare r.code) := by
  rcases execRead_cases h with ⟨-, rfl⟩ | ⟨-, rfl⟩ | ⟨-, rs, -, rfl⟩
  · exact ⟨Result.bare .timedOut, rfl, fun _ => rfl⟩
  · exact ⟨Result.bare .busy, rfl, fun _ => rfl⟩
  · exact ⟨decodeFrame s.cfg rs, rfl, decodeFrame_of_not_ok⟩

/-- No instruction but READ returns a word. -/
theorem exec_results_of_ne_read {i : Instr} {s t : State} (hi : i ≠ .read) (h : exec i s = .next t) :
    t.results = s.results := by
  cases i with
  | init =>
    simp only [exec, execInit_eq] at h
    cases h
    split <;> simp
  | start => rcases execStart_cases h with ⟨-, rfl⟩ | ⟨-, -, rfl⟩ | ⟨-, -, rfl⟩ <;> simp
  | service =>
    rcases execService_cases h with ⟨-, rfl⟩ | ⟨-, -, rfl⟩ | ⟨-, -, -, -, rfl⟩ | ⟨-, -, -, rfl⟩ <;> simp
  | read => exact absurd rfl hi
  | edge level => rcases execEdge_cases h with ⟨-, rfl⟩ | ⟨-, -, rfl⟩ | ⟨-, -, rfl⟩ <;> simp

/-! ## The temperature field (30_encoding.md R81) -/

theorem tSign_eq_decide (t : DataField) : tSign t = decide (32768 ≤ t.toNat) :=
  (BitVec.msb_eq_getLsbD_last t).symm.trans (BitVec.msb_eq_decide t)

theorem tMag_toNat (t : DataField) : (tMag t).toNat = t.toNat % 32768 := BitVec.extractLsb'_toNat 0 15 t

/-- The field is its magnitude, with 32768 added under the sign. -/
theorem toNat_eq_sign_add_mag (t : DataField) : t.toNat = (tSign t).toNat * 32768 + (tMag t).toNat := by
  have width : t.toNat < 65536 := t.isLt
  rw [tSign_eq_decide, tMag_toNat]
  by_cases h : 32768 ≤ t.toNat <;> simp [h] <;> omega

end Sys2Proof.Machine

namespace Sys2Proof.Proofs

open Sys2Proof.Machine

/-- Settles O5: each row is its own word on its own port (`decode_eq_ok_iff`), and that word is its mask and match. -/
theorem decodeAgreesWithTheOpcodeMap : Obligations.DecodeAgreesWithTheOpcodeMap := by
  intro p w
  simp only [decode_eq_ok_iff, and_foregroundMask, eq_encode_edge_iff]
  exact ⟨Iff.rfl, Iff.rfl, Iff.rfl, Iff.rfl, fun l => Iff.rfl⟩

/-- Settles O10: the words the decoder rejects are the illegal ones, and `raiseModelFault` writes the fault alone. -/
theorem illegalWordFaultsAndNothingElse : Obligations.IllegalWordFaultsAndNothingElse := by
  intro s r rest hw hf ha
  refine ⟨fun illegal => ?_, exists_decode_of_not_illegalOn⟩
  obtain ⟨e, he⟩ := (exists_decode_error_iff r.port r.word).2 illegal
  exact step_of_decode_error hw hf ha he

/-- Settles O49: the fields by their own lemmas, the codes as rows of their two tables, the words of the operations by
`execRead_results` and `exec_results_of_ne_read`. -/
theorem resultWordLayout : Obligations.ResultWordLayout := by
  refine ⟨fun r => ⟨codeField_word r, word_extractLsb'_reserved r, tRawField_word r, hRawField_word r⟩,
    rfl, rfl, rfl, rfl, rfl, rfl, rfl, rfl, ?read, fun _ _ _ => exec_results_of_ne_read⟩
  intro s t h
  obtain ⟨r, hr, bare⟩ := execRead_results h
  refine ⟨r, hr, fun notOk => ?_⟩
  rw [bare notOk]
  exact ⟨rfl, rfl⟩

/-- Settles O50: the field splits into sign and magnitude by `toNat_eq_sign_add_mag`, and an OK result carries the
bytes unchanged. -/
theorem temperatureIsSignMagnitude : Obligations.TemperatureIsSignMagnitude := by
  refine ⟨fun t => ?split, fun f valid h2 h3 => ?reported⟩
  case split =>
    have parts := toNat_eq_sign_add_mag t
    have bound : (tMag t).toNat < 32768 := (tMag t).isLt
    refine ⟨parts, by omega, fun sign => ?plus, fun sign => ?minus, by decide, by decide⟩
    case plus =>
      rw [sign, Bool.toNat_false] at parts
      rw [temperatureTenths, if_neg (Bool.eq_false_iff.1 sign)]
      omega
    case minus =>
      rw [sign, Bool.toNat_true] at parts
      rw [temperatureTenths, if_pos sign]
      omega
  case reported =>
    rw [tRawField_word, frameResult_of_ok valid, h2, h3]
    rfl

end Sys2Proof.Proofs
end

section
/-! PROOF. The five operations, case by case (40_capture_session.md R101 to R106). -/

namespace Sys2Proof.Machine

/-! ## INIT and START (40_capture_session.md R101, R102) -/

section
variable {s : State}

theorem exec_init_of_not_initDone (h : s.initDone = false) :
    exec .init s = .next (markInitDone (emit [.delayInit] s)) := by
  simp [exec, execInit_eq, h]

theorem exec_init_of_initDone (h : s.initDone = true) : exec .init s = .next s := by
  simp [exec, execInit_eq, h]

theorem exec_start_of_not_initDone (h : s.initDone = false) : exec .start s = raiseModelFault .startBeforeInit s := by
  simp [exec, execStart, h]

theorem exec_start_of_idle (hi : s.initDone = true) (hs : s.state = .idle) :
    exec .start s = .next (openSession (nowMs s) (emit (wakeAndArm s.cfg) s)) := by
  simp [exec, execStart, hi, hs]

theorem exec_start_of_not_idle (hi : s.initDone = true) (hs : s.state ≠ .idle) : exec .start s = .next s := by
  cases h : s.state with
  | idle => exact absurd h hs
  | capturing => simp [exec, execStart, hi, h]
  | ready => simp [exec, execStart, hi, h]

end

/-! ## EDGE (40_capture_session.md R104) -/

section
variable {level : Bool} {s : State}

theorem exec_edge_of_disarmed (h : s.armed = false) : exec (.edge level) s = .next s := by
  simp [exec, execEdge_eq, h]

theorem exec_edge_of_full (h : s.cfg.capacity ≤ s.count.toNat) : exec (.edge level) s = .next s := by
  simp [exec, execEdge_eq, Nat.not_lt.2 h]

theorem exec_edge_of_room (ha : s.armed = true) (h : s.count.toNat + 1 < s.cfg.capacity) :
    exec (.edge level) s = .next (appended (edgeRecord level s) s) := by
  simp [exec, execEdge_eq, ha, Nat.lt_of_succ_lt h, Nat.ne_of_lt h]

theorem exec_edge_of_last_slot (ha : s.armed = true) (h : s.count.toNat + 1 = s.cfg.capacity) :
    exec (.edge level) s = .next (closeSession .ready (appended (edgeRecord level s) s)) := by
  simp [exec, execEdge_eq, ha, h, Nat.lt_of_succ_le h.le]

end

/-! ## SERVICE (40_capture_session.md R105) -/

theorem timeoutFires_iff_timedOut (c : Config) (now start : Nat) :
    timeoutFires c now start = true ↔ Claims.TimedOut c now start :=
  (timeoutFires_iff c now start).trans (lt_subMod_iff _ _ _ _).symm

theorem silenceFires_iff_silent (c : Config) (now last : Nat) :
    silenceFires c now last = true ↔ Claims.Silent c now last :=
  (silenceFires_iff c now last).trans (lt_subMod_iff _ _ _ _).symm

section
variable {s : State}

theorem exec_service_of_not_capturing (h : s.state ≠ .capturing) : exec .service s = .next s := by
  simp [exec, execService_eq, h]

theorem exec_service_of_timedOut (hs : s.state = .capturing) (ht : Claims.TimedOut s.cfg (nowMs s) s.startMs) :
    exec .service s = .next (closeSession .idle s) := by
  simp [exec, execService_eq, hs, timeoutFires_iff_timedOut, ht]

theorem exec_service_of_silent (hs : s.state = .capturing) (ht : ¬Claims.TimedOut s.cfg (nowMs s) s.startMs)
    (hc : 1 ≤ s.count.toNat) (hq : Claims.Silent s.cfg (nowCnt s) s.lastTs) :
    exec .service s = .next (closeSession .ready s) := by
  simp [exec, execService_eq, hs, timeoutFires_iff_timedOut, silenceFires_iff_silent, ht, hc, hq]

/-- In Capturing without a timeout, SERVICE waits while there is no record or no silence after the last one. -/
theorem exec_service_of_waiting (ht : ¬Claims.TimedOut s.cfg (nowMs s) s.startMs)
    (hq : ¬(1 ≤ s.count.toNat ∧ Claims.Silent s.cfg (nowCnt s) s.lastTs)) : exec .service s = .next s := by
  rw [← timeoutFires_iff_timedOut] at ht
  rw [← silenceFires_iff_silent] at hq
  simp only [exec, execService_eq, if_neg ht, if_neg hq, ite_self]

end

/-! ## READ (40_capture_session.md R106) -/

section
variable {s : State}

theorem exec_read_of_idle (h : s.state = .idle) : exec .read s = .next (respond (Result.bare .timedOut).word s) := by
  simp [exec, execRead, h]

theorem exec_read_of_capturing (h : s.state = .capturing) :
    exec .read s = .next (respond (Result.bare .busy).word s) := by
  simp [exec, execRead, h]

theorem exec_read_of_ready {rs : List EdgeRecord} (h : s.state = .ready) (hr : bufReadAll s.count.toNat s = .ok rs) :
    exec .read s = .next (respond (decodeFrame s.cfg rs).word (consumeSession s)) := by
  simp [exec, execRead, readReady, h, hr]

end

end Sys2Proof.Machine

namespace Sys2Proof.Proofs

open Sys2Proof.Machine

/-- Settles O13: the two cases of `init_done`. -/
theorem initSetsUpOnce : Obligations.InitSetsUpOnce :=
  fun _ => ⟨exec_init_of_not_initDone, exec_init_of_initDone⟩

/-- Settles O14: from Idle the session opens with an empty buffer (`bufRead_openSession`). -/
theorem startBeginsASessionFromIdle : Obligations.StartBeginsASessionFromIdle := by
  refine fun s => ⟨exec_start_of_not_initDone, exec_start_of_not_idle, fun initDone idle => ?_⟩
  exact ⟨_, exec_start_of_idle initDone idle, rfl, fun i => bufRead_openSession i _ _⟩

/-- Settles O15: with room the record is `appended`, and the append that fills the buffer closes the session, which
neither the count nor any entry sees. -/
theorem edgeRecordsOneEdge : Obligations.EdgeRecordsOneEdge := by
  intro level s fits
  refine ⟨exec_edge_of_disarmed, fun _ => exec_edge_of_full, fun armed room => ?_⟩
  have grows : (s.count + 1#8).toNat = s.count.toNat + 1 := count_succ fits room
  have reads := bufRead_appended (edgeRecord level s) grows
  by_cases last : s.count.toNat + 1 = s.cfg.capacity
  case pos =>
    exact ⟨_, exec_edge_of_last_slot armed last, grows, reads, fun notLast => absurd last notLast, fun _ => rfl⟩
  case neg =>
    have more : s.count.toNat + 1 < s.cfg.capacity := Nat.lt_of_le_of_ne room last
    exact ⟨_, exec_edge_of_room armed more, grows, reads, fun _ => rfl, fun isLast => absurd isLast last⟩

/-- Settles O16: the timeout is decided first; without it SERVICE closes only on silence after a record. -/
theorem serviceDetectsTheEndOfTheSession : Obligations.ServiceDetectsTheEndOfTheSession := by
  refine fun s => ⟨exec_service_of_not_capturing, fun capturing => ⟨exec_service_of_timedOut capturing, ?_⟩⟩
  refine fun inTime => ⟨fun empty => ?_, fun held => ⟨fun silent => ?_, fun notSilent => ?_⟩⟩
  · exact exec_service_of_waiting inTime fun ⟨one, _⟩ => (count_pos_iff s.count).2 one empty
  · exact exec_service_of_silent capturing inTime ((count_pos_iff s.count).1 held) silent
  · exact exec_service_of_waiting inTime fun ⟨_, silent⟩ => notSilent silent

/-- Settles O17: in Ready the records READ decodes are the entries below count (`bufReadAll_eq_ok_iff`). -/
theorem readReportsTheOutcome : Obligations.ReadReportsTheOutcome := by
  refine fun s => ⟨exec_read_of_capturing, exec_read_of_idle, fun ready rs length entries => ?_⟩
  exact exec_read_of_ready ready ((bufReadAll_eq_ok_iff s.count.toNat s rs).2 ⟨length, entries⟩)

end Sys2Proof.Proofs
end

section
/-! PROOF. The frame decoder, stage by stage: pulse reconstruction, sufficiency, classification, byte assembly, the two
fields and the float view (41_frame_decoder.md R152 to R162). -/

namespace Sys2Proof.Machine

open Sys2Proof.Claims

/-! ## Pulse reconstruction (41_frame_decoder.md R152) -/

theorem nextFalling_eq_find? (rs : List EdgeRecord) : nextFalling rs = rs.find? fun f => !f.lvl := by
  induction rs with
  | nil => rfl
  | cons r rs ih => cases h : r.lvl <;> simp [nextFalling, h, ih]

section
variable (c : Config) (r : EdgeRecord) (rs : List EdgeRecord)

/-- Record 0 pairs as the scan pairs it: with the first falling record of the rest, when it is rising. -/
theorem pulseAt_cons_zero :
    pulseAt c (r :: rs) 0 =
      if r.lvl then (nextFalling rs).map fun f => pulseWidth c r.ts f.ts else none := by
  simp [pulseAt, nextFalling_eq_find?, pulseWidth, subMod]

/-- A record pairs as it does with the records before it dropped. -/
theorem pulseAt_cons_succ (i : Nat) : pulseAt c (r :: rs) (i + 1) = pulseAt c rs i := rfl

theorem filterMap_pulseAt_cons :
    (List.range (r :: rs).length).filterMap (pulseAt c (r :: rs)) =
      (pulseAt c (r :: rs) 0).toList ++ (List.range rs.length).filterMap (pulseAt c rs) := by
  have shifted : pulseAt c (r :: rs) ∘ Nat.succ = pulseAt c rs := funext (pulseAt_cons_succ c r rs)
  rw [List.length_cons, List.range_succ_eq_map, List.filterMap_cons, List.filterMap_map, shifted]
  cases pulseAt c (r :: rs) 0 <;> rfl

end

/-- The scan collects the widths of `pulseAt` in record order, up to its room. Where it stops at a rising record without
a falling one after it, no later record has a width either. -/
theorem pulsesUpTo_eq_take_filterMap_pulseAt (c : Config) (n : Nat) (rs : List EdgeRecord) :
    pulsesUpTo c n rs = ((List.range rs.length).filterMap (pulseAt c rs)).take n := by
  induction rs generalizing n with
  | nil => simp
  | cons r rs ih =>
    obtain ⟨t, level⟩ := r
    rw [filterMap_pulseAt_cons, pulseAt_cons_zero]
    cases level with
    | false => rw [pulsesUpTo_fall]; exact ih n
    | true =>
      cases partner : nextFalling rs with
      | none =>
        rw [pulsesUpTo_rise_none c n t partner, ← pulsesUpTo_of_no_fall c n partner]
        exact ih n
      | some f =>
        cases n with
        | zero => simp
        | succ n => rw [pulsesUpTo_rise_some c n t partner, ih n]; rfl

/-! ## Sufficiency (41_frame_decoder.md R155, R163) -/

section
variable {c : Config} {rs : List EdgeRecord}

theorem decodeFrame_of_length_lt (short : (pulses c rs).length < 41) :
    decodeFrame c rs = Result.bare .framingError :=
  if_neg fun enough => absurd ((sufficient_iff _).1 enough) (Nat.not_le.2 short)

theorem decodeFrame_of_le_length (enough : 41 ≤ (pulses c rs).length) :
    decodeFrame c rs = frameResult (assembleFrame (frameBits c (pulses c rs))) :=
  if_pos ((sufficient_iff _).2 enough)

end

/-! ## Byte assembly (41_frame_decoder.md R158, 20_memory.md R54) -/

/-- The sum of R158 is the number whose binary digits, lowest first, are the group's bits from the last to the first. -/
theorem assembleByte_eq_ofBits (bits : List Bool) (m : Nat) :
    assembleByte bits m = BitVec.ofNat 8 (Nat.ofBits fun i : Fin 8 => bits.getD (8 * m + (7 - i)) false) := by
  unfold assembleByte
  congr 1
  simp [List.range_succ, Nat.ofBits_succ]
  omega

/-- The first bit of a group is the most significant of its byte. -/
theorem assembleByte_getLsbD (bits : List Bool) (m : Nat) {b : Nat} (hb : b < 8) :
    (assembleByte bits m).getLsbD (7 - b) = bits.getD (8 * m + b) false := by
  have place : 7 - b < 8 := by omega
  rw [assembleByte_eq_ofBits, BitVec.getLsbD_ofNat, Nat.testBit_ofBits_lt _ _ place, decide_eq_true place,
    Bool.true_and]
  exact congrArg (fun j => bits.getD (8 * m + j) false) (Nat.sub_sub_self (Nat.le_of_lt_succ hb))

theorem assembleFrame_byte (bits : List Bool) {m : Nat} (hm : m < 5) :
    (assembleFrame bits).byte m = assembleByte bits m := by
  match m with
  | 0 | 1 | 2 | 3 | 4 => rfl

/-- Bit k of the assembled frame, in arrival order, is bit k of the list. -/
theorem assembleFrame_bit (bits : List Bool) {k : Nat} (hk : k < 40) :
    (assembleFrame bits).bit k = bits.getD k false := by
  unfold Frame.bit
  rw [assembleFrame_byte bits (by omega : k / 8 < 5), assembleByte_getLsbD bits _ (Nat.mod_lt k (by decide)),
    Nat.div_add_mod]

/-! ## The big-endian fields (41_frame_decoder.md R160, R161) -/

/-- The two bytes always fit the field, so nothing is cut. -/
theorem bigEndian_toNat (hi lo : Byte) : (bigEndian hi lo).toNat = hi.toNat * 256 + lo.toNat := by
  have := hi.isLt
  have := lo.isLt
  exact Nat.mod_eq_of_lt (by omega)

end Sys2Proof.Machine

namespace Sys2Proof.Proofs

open Sys2Proof.Machine

/-- Settles O41: `pulses` is the scan with room for MAX_PULSES widths. -/
theorem pulsesPairEveryRisingRecord : Obligations.PulsesPairEveryRisingRecord :=
  fun c rs => pulsesUpTo_eq_take_filterMap_pulseAt c c.maxPulses rs

/-- Settles O44: the width count alone decides FRAMING_ERROR; past it the result is that of a frame, which is OK or the
bare CHECKSUM_MISMATCH. -/
theorem fewerThanFortyOneWidthsIsFramingError : Obligations.FewerThanFortyOneWidthsIsFramingError := by
  refine fun c rs => ⟨fun short => ?short, fun enough => ?enough⟩
  case short =>
    rw [decodeFrame_of_length_lt short]
    exact ⟨rfl, rfl⟩
  case enough =>
    rw [decodeFrame_of_le_length enough]
    refine or_iff_not_imp_left.2 fun notOk => ?_
    rw [frameResult_of_not_ok notOk]
    exact ⟨rfl, rfl⟩

/-- Settles O45: bit k is the class of width k + 1 (`frameBits_getElem`). -/
theorem dataPulsesAreClassifiedStrictly : Obligations.DataPulsesAreClassifiedStrictly := by
  intro c ws enough
  have length : (frameBits c ws).length = 40 := by
    rw [length_frameBits]
    omega
  refine ⟨length, fun k _ hk => ?_⟩
  have inBits : k < (frameBits c ws).length := hk.trans_eq length.symm
  rw [List.getElem?_eq_getElem inBits, frameBits_getElem c ws k inBits]
  rfl

/-- Settles O46: the bit the statement names is `Frame.bit`. -/
theorem bitsArePackedMostSignificantFirst : Obligations.BitsArePackedMostSignificantFirst := by
  intro bits length k hk
  exact (assembleFrame_bit bits (hk.trans_eq length)).trans (List.getD_eq_getElem bits false hk)

/-- Settles O48: an OK result holds the two big-endian fields, and its word gives them back. -/
theorem fieldsAreBigEndianAndUnchanged : Obligations.FieldsAreBigEndianAndUnchanged := by
  intro f valid
  have humidity : (frameResult f).hRaw.toNat = f.b0.toNat * 256 + f.b1.toNat := by
    rw [frameResult_of_ok valid]
    exact bigEndian_toNat f.b0 f.b1
  have temperature : (frameResult f).tRaw.toNat = f.b2.toNat * 256 + f.b3.toNat := by
    rw [frameResult_of_ok valid]
    exact bigEndian_toNat f.b2 f.b3
  exact ⟨humidity, humidity, temperature, hRawField_word _, tRawField_word _⟩

/-- Settles O51: without its sign the field is its magnitude, with it 32768 more (`toNat_eq_sign_add_mag`). -/
theorem floatSignIsAppliedAfterScaling : Obligations.FloatSignIsAppliedAfterScaling := by
  intro t h
  have parts := toNat_eq_sign_add_mag t
  refine ⟨rfl, fun sign => ?plus, fun sign => ?minus⟩
  case plus =>
    rw [sign, Bool.toNat_false, Nat.zero_mul, Nat.zero_add] at parts
    rw [temperatureFloat, if_neg (Bool.eq_false_iff.1 sign), parts]
  case minus =>
    rw [sign, Bool.toNat_true, Nat.one_mul] at parts
    rw [temperatureFloat, if_pos sign, parts, Nat.add_sub_cancel_left]

end Sys2Proof.Proofs
end

section
/-! PROOF. The model faults and the output events: what each operation can record and emit (60_exceptions.md R203,
R214). -/

namespace Sys2Proof.Machine

/-! ## INIT (40_capture_session.md R101) -/

/-- Everything INIT can do. -/
theorem execInit_cases {s t : State} (h : execInit s = .next t) :
    (s.initDone = true ∧ t = s) ∨ (s.initDone = false ∧ t = markInitDone (emit [.delayInit] s)) := by
  rw [execInit_eq] at h
  cases h
  cases hi : s.initDone <;> simp

/-! ## Model faults (60_exceptions.md R203) -/

/-- A faulted block takes no step, whatever arrives. -/
theorem step_of_fault {s : State} {m : ModelFault} (hw : s.cfg.wf = true) (hf : s.fault = some m) :
    step s = .fault (.stopped m) := by
  unfold step
  rw [if_pos hw, hf]

/-- The only instruction that records a fault is START before INIT, and it does nothing else. -/
theorem exec_fault_cases {i : Instr} {s t : State} (h : exec i s = .next t) :
    t.fault = s.fault ∨ (i = .start ∧ s.initDone = false ∧ t = { s with fault := some .startBeforeInit }) := by
  cases i with
  | init => rcases execInit_cases h with ⟨-, rfl⟩ | ⟨-, rfl⟩ <;> exact .inl rfl
  | start =>
    rcases execStart_cases h with ⟨hi, ht⟩ | ⟨-, -, rfl⟩ | ⟨-, -, rfl⟩
    · exact .inr ⟨rfl, hi, ht⟩
    all_goals exact .inl rfl
  | service =>
    rcases execService_cases h with ⟨-, rfl⟩ | ⟨-, -, rfl⟩ | ⟨-, -, -, -, rfl⟩ | ⟨-, -, -, rfl⟩ <;> exact .inl rfl
  | read => rcases execRead_cases h with ⟨-, rfl⟩ | ⟨-, rfl⟩ | ⟨-, -, -, rfl⟩ <;> exact .inl rfl
  | edge level => rcases execEdge_cases h with ⟨-, rfl⟩ | ⟨-, -, rfl⟩ | ⟨-, -, rfl⟩ <;> exact .inl rfl

end Sys2Proof.Machine

namespace Sys2Proof.Proofs

open Sys2Proof.Machine

/-- Settles O11: a step records a fault either for an illegal word (`exists_decode_error_iff`) or in its instruction,
which is then START before INIT (`exec_fault_cases`), since a block that goes on has recorded none. -/
theorem modelFaultsAreTwoAndFinal : Obligations.ModelFaultsAreTwoAndFinal := by
  refine ⟨fun s m wf faulted => ⟨step_of_fault wf faulted, ?status⟩, fun s t m stepped recorded => ?cause⟩
  case status =>
    rw [statusWord_getLsbD]
    exact Option.isSome_of_eq_some faulted
  case cause =>
    obtain ⟨-, running, r, rest, taken, ⟨e, rejected, rfl⟩ | ⟨i, decoded, executed⟩⟩ := step_cases stepped
    · cases recorded
      exact ⟨r, rest, taken, rfl, .inl ⟨(exists_decode_error_iff _ _).1 ⟨e, rejected⟩, rfl⟩⟩
    · rcases exec_fault_cases executed with kept | ⟨rfl, beforeInit, rfl⟩
      · rw [kept, accept_fault, running] at recorded
        cases recorded
      · cases recorded
        exact ⟨r, rest, taken, rfl, .inr ⟨decoded, beforeInit, rfl⟩⟩

/-- Settles O29: the events of each case of the instruction's own case lemma; a case that writes no event emits the empty list. -/
theorem eventsOfEachOperation : Obligations.EventsOfEachOperation := by
  intro i s t h
  have unchanged (same : t.events = s.events) : t.events = s.events ++ [] :=
    same.trans (List.append_nil _).symm
  cases i with
  | init =>
    rcases execInit_cases h with ⟨-, rfl⟩ | ⟨beforeInit, rfl⟩
    · exact ⟨[], unchanged rfl, .inl rfl⟩
    · exact ⟨_, rfl, .inr (.inl ⟨rfl, beforeInit, rfl⟩)⟩
  | start =>
    rcases execStart_cases h with ⟨-, rfl⟩ | ⟨initDone, idle, rfl⟩ | ⟨-, -, rfl⟩
    · exact ⟨[], unchanged rfl, .inl rfl⟩
    · exact ⟨_, rfl, .inr (.inr (.inl ⟨rfl, initDone, idle, rfl⟩))⟩
    · exact ⟨[], unchanged rfl, .inl rfl⟩
  | service =>
    rcases execService_cases h with ⟨-, rfl⟩ | ⟨capturing, -, rfl⟩ | ⟨capturing, -, -, -, rfl⟩ | ⟨-, -, -, rfl⟩
    · exact ⟨[], unchanged rfl, .inl rfl⟩
    · exact ⟨_, rfl, .inr (.inr (.inr ⟨.inl ⟨rfl, capturing, .inl rfl⟩, rfl⟩))⟩
    · exact ⟨_, rfl, .inr (.inr (.inr ⟨.inl ⟨rfl, capturing, .inr rfl⟩, rfl⟩))⟩
    · exact ⟨[], unchanged rfl, .inl rfl⟩
  | read => rcases execRead_cases h with ⟨-, rfl⟩ | ⟨-, rfl⟩ | ⟨-, _, -, rfl⟩ <;> exact ⟨[], unchanged rfl, .inl rfl⟩
  | edge level =>
    rcases execEdge_cases h with ⟨-, rfl⟩ | ⟨-, -, rfl⟩ | ⟨armed, fills, rfl⟩
    · exact ⟨[], unchanged rfl, .inl rfl⟩
    · exact ⟨[], unchanged rfl, .inl rfl⟩
    · exact ⟨_, rfl, .inr (.inr (.inr ⟨.inr ⟨⟨level, rfl⟩, armed, fills⟩, rfl⟩))⟩

end Sys2Proof.Proofs
end

section
/-! PROOF. The configuration check, the decoder both ways, and what one step takes and runs (00_scope.md R10, R18;
30_encoding.md R70, R73; 40_capture_session.md R100; 60_exceptions.md R216). -/

namespace Sys2Proof

/-! ## The decoder on the word as the opcode table numbers it (30_encoding.md R73) -/

/-- The port of a word's row is the port of the instruction the word encodes. -/
@[simp] theorem portOfWord_encode (i : Instr) : portOfWord (encode i) = i.port := by
  cases i with
  | edge l => exact if_pos (opField_commandWord 0#4 l edgeOp)
  | _ => rfl

@[simp] theorem decodeTableWord_encode (i : Instr) : decodeTableWord 8 (encode i).toNat = some i := by
  have inRange : (encode i).toNat < 256 := (encode i).isLt
  simp [decodeTableWord, inRange]

theorem Config.wf_iff_meetsR10 (c : Config) : c.wf = true ↔ Claims.MeetsR10 c := by
  simp only [Config.wf_iff, Claims.MeetsR10, and_assoc]

end Sys2Proof

namespace Sys2Proof.Machine

/-! ## What a step is refused for (00_scope.md R10) -/

theorem step_of_not_wf {s : State} (h : ¬s.cfg.wf = true) : step s = .refused .badConfiguration := if_neg h

/-- No instruction refuses. -/
theorem exec_ne_refused (i : Instr) (s : State) (e : Refusal) : exec i s ≠ .refused e := by
  cases i with
  | init => simp [exec, execInit_eq]
  | start =>
    by_cases hi : s.initDone = true
    · by_cases hs : s.state = .idle
      · simp [exec_start_of_idle hi hs]
      · simp [exec_start_of_not_idle hi hs]
    · simp [exec_start_of_not_initDone (Bool.eq_false_iff.2 hi), raiseModelFault]
  | service => simp [exec, execService_eq]
  | read =>
    cases hs : s.state with
    | idle => simp [exec_read_of_idle hs]
    | capturing => simp [exec_read_of_capturing hs]
    | ready => cases hr : bufReadAll s.count.toNat s <;> simp [exec, execRead, readReady, hs, hr]
  | edge level => simp [exec, execEdge_eq]

/-- The only refusal under a good configuration is that nothing has arrived. -/
theorem step_refused_of_wf {s : State} {e : Refusal} (hw : s.cfg.wf = true) (h : step s = .refused e) :
    e = .noOperation := by
  unfold step at h
  rw [if_pos hw] at h
  split at h
  · cases h
  · split at h
    · cases h; rfl
    · split at h
      · cases h
      · exact absurd h (exec_ne_refused _ _ _)

/-- The operation a step takes is the first to arrive: `accept` takes it, and no instruction writes what `accept` sets. -/
theorem step_takes_one {s t : State} (stepped : step s = .next t) :
    ∃ r, s.arrivals = r :: t.arrivals ∧ t.inputs = r.inputs ∧ t.cfg = s.cfg := by
  obtain ⟨-, -, r, rest, taken, ⟨-, -, rfl⟩ | ⟨i, -, executed⟩⟩ := step_cases stepped
  · exact ⟨r, taken, rfl, rfl⟩
  · obtain ⟨arrivals, inputs, cfg⟩ := exec_keeps executed
    exact ⟨r, by rw [arrivals]; exact taken, inputs, cfg⟩

end Sys2Proof.Machine

namespace Sys2Proof.Proofs

open Sys2Proof.Machine

/-- Settles O6: an instruction's word decodes on its port and as a table word, and `decode_eq_ok_iff` is the converse. -/
theorem decodeInvertsEncode : Obligations.DecodeInvertsEncode :=
  ⟨fun i => ⟨decode_encode i, decodeTableWord_encode i⟩,
    fun p w i decoded => ((decode_eq_ok_iff p w i).1 decoded).symm⟩

/-- Settles O7: each written-out word is the encoding of its row. -/
theorem writtenOutWordsDecode : Obligations.WrittenOutWordsDecode :=
  ⟨decode_encode .init, decode_encode .start, decode_encode .service, decode_encode .read,
    decode_encode (.edge false), decode_encode (.edge true)⟩

/-- Settles O4: `Config.wf` is R10's list, and under it the one refusal a step knows is another. -/
theorem configurationOutsideConstraintsIsRefused : Obligations.ConfigurationOutsideConstraintsIsRefused := by
  intro s
  rw [← Config.wf_iff_meetsR10]
  refine ⟨step_of_not_wf, fun wf refused => ?_⟩
  cases step_refused_of_wf wf refused

/-- Settles O8: this is `step_of_decode`. -/
theorem stepRunsTheDecodedInstruction : Obligations.StepRunsTheDecodedInstruction :=
  fun _ _ _ _ => step_of_decode

/-- Settles O9: the placed word is the next arrival, decodes on its row's port, and leaves the state it was placed in. -/
theorem placedWordRunsAsItself : Obligations.PlacedWordRunsAsItself := by
  intro s i wf running
  have placed : s.withFetchWord 8 (encode i).toNat = placeCommand i.port (encode i) s := by
    simp [State.withFetchWord]
  have taken : accept { port := i.port, word := encode i, inputs := s.inputs } s.arrivals
      (placeCommand i.port (encode i) s) = s := rfl
  rw [placed, step_of_decode (s := placeCommand i.port (encode i) s) wf running
    (placeCommand_arrivals s i.port (encode i)) (decode_encode i), taken]

/-- Settles O12: this is `step_takes_one`. -/
theorem eachStepTakesOneOperation : Obligations.EachStepTakesOneOperation :=
  fun _ _ => step_takes_one

/-- Settles O58: the list is the old one with entry k replaced. -/
theorem blocksShareNothing : Obligations.BlocksShareNothing := by
  intro blocks blocks' k h
  unfold stepBlock at h
  split at h
  · cases h
  · next s found =>
    split at h <;> cases h
    next t stepped =>
    have inRange : k < blocks.length := (List.getElem?_eq_some_iff.1 found).1
    exact ⟨List.length_set, fun j other => List.getElem?_set_ne other.symm, s, t, found, stepped,
      List.getElem?_set_self inRange⟩

end Sys2Proof.Proofs
end

section
/-! PROOF. The invariant: the shared updates that keep it, every step, and the states reached from reset
(10_state.md R33). -/

namespace Sys2Proof.Machine

/-! ## The part of the invariant that speaks of the records -/

/-- The clauses of `Inv` about the buffer, the count and the last timestamp. An append keeps them whether or not it fills
the buffer, while `Inv` holds again only once the filled session is closed. -/
structure BufferInv (s : State) : Prop where
  count_le : s.count.toNat ≤ s.cfg.capacity
  last_ts_newest : 1 ≤ s.count.toNat → ∃ r, bufRead (s.count.toNat - 1) s = .ok r ∧ s.lastTs = r.ts
  new_edge_iff : s.newEdge = true ↔ 1 ≤ s.count.toNat
  buf_wf : Memory.wf s.buf = true
  buf_listed : ∀ i, (Memory.lookup i s.buf).isSome = true ↔ i < s.count.toNat
  in_range : InRange s

section
variable {s : State}

theorem Inv.buffer (h : Inv s) : BufferInv s :=
  ⟨h.count_le, h.last_ts_newest, h.new_edge_iff, h.buf_wf, h.buf_listed, h.in_range⟩

theorem BufferInv.appended {r : EdgeRecord} (h : BufferInv s) (fits : s.cfg.capacity ≤ 255)
    (room : s.count.toNat < s.cfg.capacity) (hr : r.ts < 2 ^ s.cfg.cntBits) : BufferInv (appended r s) := by
  have grows : (s.count + 1#8).toNat = s.count.toNat + 1 := count_succ fits room
  refine ⟨?_, fun _ => ⟨r, ?_, rfl⟩, ?_, Memory.wf_store _ _ h.buf_wf, fun i => ?_, fun i x hx => ?_, hr, h.in_range.start_ms⟩
  · exact grows.trans_le room
  · rw [bufRead_appended r grows, appended_count, grows, Nat.add_sub_cancel, if_pos rfl]
  · simp [grows]
  · rw [appended_buf, appended_count, grows, Memory.lookup_store, Nat.lt_succ_iff_lt_or_eq, ← h.buf_listed i]
    split
    · next last => simp [last]
    · next other => simp [other]
  · rw [appended_buf, Memory.lookup_store] at hx
    split at hx
    · cases hx; exact hr
    · exact h.in_range.records i x hx

/-! ## The shared updates -/

/-- The invariant does not see the arrivals, the sampled inputs, the observation or the fault. -/
theorem Inv.of_unseen {t : State} (h : Inv s)
    (unseen : t = { s with
      arrivals := t.arrivals, inputs := t.inputs, events := t.events, results := t.results, fault := t.fault }) :
    Inv t := by
  rw [unseen]
  exact ⟨h.armed_iff, h.count_le, h.capturing_room, h.last_ts_newest, h.new_edge_iff, h.armed_both, h.line_released,
    h.buf_wf, h.buf_listed, h.session_initialised, h.ready_nonempty,
    ⟨h.in_range.records, h.in_range.last_ts, h.in_range.start_ms⟩⟩

theorem Inv.accept (h : Inv s) (r : Request) (l : List Request) : Inv (accept r l s) := h.of_unseen rfl

theorem Inv.respond (h : Inv s) (w : ResultWord) : Inv (respond w s) := h.of_unseen rfl

theorem Inv.emit (h : Inv s) (es : List Event) : Inv (emit es s) := h.of_unseen rfl

theorem Inv.markInitDone (h : Inv s) : Inv (markInitDone s) :=
  { h with
    session_initialised := fun _ => rfl
    in_range := ⟨h.in_range.records, h.in_range.last_ts, h.in_range.start_ms⟩ }

theorem Inv.consumeSession (h : Inv s) (ready : s.state = .ready) : Inv (consumeSession s) :=
  { h with
    armed_iff := by simp [h.armed_iff, ready]
    capturing_room := fun capturing => by cases capturing
    session_initialised := fun notIdle => absurd rfl notIdle
    ready_nonempty := fun isReady => by cases isReady
    in_range := ⟨h.in_range.records, h.in_range.last_ts, h.in_range.start_ms⟩ }

theorem Inv.openSession (h : Inv s) (wf : s.cfg.wf = true) (initDone : s.initDone = true) {now : TickValue}
    (hn : now < 2 ^ s.cfg.tickBits) : Inv (openSession now s) where
  armed_iff := by simp
  count_le := by simp
  capturing_room := fun _ => ((Config.wf_iff s.cfg).1 wf).1.1
  last_ts_newest := by simp
  new_edge_iff := by simp
  armed_both := fun _ => rfl
  line_released := rfl
  buf_wf := rfl
  buf_listed := by simp
  session_initialised := fun _ => initDone
  ready_nonempty := by simp
  in_range := ⟨by simp, h.in_range.last_ts, hn⟩

/-- A session may close with any buffer that meets its part: this covers the append that fills it. -/
theorem BufferInv.closeSession (h : BufferInv s) (released : s.lineMode = .released) (initDone : s.initDone = true)
    {n : SessionState} (leaves : n ≠ .capturing) (held : n = .ready → 1 ≤ s.count.toNat) : Inv (closeSession n s) :=
  { h with
    armed_iff := by simp [leaves]
    capturing_room := fun capturing => absurd capturing leaves
    armed_both := by simp
    line_released := released
    session_initialised := fun _ => initDone
    ready_nonempty := held
    in_range := ⟨h.in_range.records, h.in_range.last_ts, h.in_range.start_ms⟩ }

theorem Inv.initDone_of_capturing (h : Inv s) (capturing : s.state = .capturing) : s.initDone = true :=
  h.session_initialised (by simp [capturing])

theorem Inv.closeSession (h : Inv s) (capturing : s.state = .capturing) {n : SessionState} (leaves : n ≠ .capturing)
    (held : n = .ready → 1 ≤ s.count.toNat) : Inv (closeSession n s) :=
  h.buffer.closeSession h.line_released (h.initDone_of_capturing capturing) leaves held

theorem Inv.appended {r : EdgeRecord} (h : Inv s) (fits : s.cfg.capacity ≤ 255)
    (room : s.count.toNat + 1 < s.cfg.capacity) (hr : r.ts < 2 ^ s.cfg.cntBits) : Inv (appended r s) :=
  have grows : (s.count + 1#8).toNat = s.count.toNat + 1 := count_succ fits (Nat.lt_of_succ_lt room)
  { h.buffer.appended fits (Nat.lt_of_succ_lt room) hr with
    armed_iff := h.armed_iff
    capturing_room := fun _ => grows.trans_lt room
    armed_both := h.armed_both
    line_released := h.line_released
    session_initialised := h.session_initialised
    ready_nonempty := fun _ => grows.ge.trans' (Nat.le_add_left 1 _) }

theorem Inv.closeSession_appended {r : EdgeRecord} (h : Inv s) (fits : s.cfg.capacity ≤ 255) (armed : s.armed = true)
    (last : s.count.toNat + 1 = s.cfg.capacity) (hr : r.ts < 2 ^ s.cfg.cntBits) :
    Inv (Machine.closeSession .ready (Machine.appended r s)) :=
  have grows : (s.count + 1#8).toNat = s.count.toNat + 1 := count_succ fits last.le
  (h.buffer.appended fits last.le hr).closeSession h.line_released (h.initDone_of_capturing (h.armed_iff.1 armed))
    (by simp) fun _ => grows.ge.trans' (Nat.le_add_left 1 _)

theorem nowMs_lt (s : State) : nowMs s < 2 ^ s.cfg.tickBits := Nat.mod_lt _ (Nat.two_pow_pos _)

theorem edgeRecord_ts_lt (level : Bool) (s : State) : (edgeRecord level s).ts < 2 ^ s.cfg.cntBits :=
  Nat.mod_lt _ (Nat.two_pow_pos _)

end

/-! ## Every instruction and every step -/

theorem exec_keeps_inv {i : Instr} {s t : State} (h : Inv s) (wf : s.cfg.wf = true) (executed : exec i s = .next t) :
    Inv t := by
  have fits : s.cfg.capacity ≤ 255 := ((Config.wf_iff s.cfg).1 wf).1.2
  cases i with
  | init =>
    rcases execInit_cases executed with ⟨-, rfl⟩ | ⟨-, rfl⟩
    · exact h
    · exact (h.emit _).markInitDone
  | start =>
    rcases execStart_cases executed with ⟨-, rfl⟩ | ⟨initDone, -, rfl⟩ | ⟨-, -, rfl⟩
    · exact h.of_unseen rfl
    · exact (h.emit _).openSession wf initDone (nowMs_lt s)
    · exact h
  | service =>
    rcases execService_cases executed with ⟨-, rfl⟩ | ⟨capturing, -, rfl⟩ | ⟨capturing, -, held, -, rfl⟩ | ⟨-, -, -, rfl⟩
    · exact h
    · exact h.closeSession capturing (by simp) (by simp)
    · exact h.closeSession capturing (by simp) fun _ => held
    · exact h
  | read =>
    rcases execRead_cases executed with ⟨-, rfl⟩ | ⟨-, rfl⟩ | ⟨ready, rs, -, rfl⟩
    · exact h.respond _
    · exact h.respond _
    · exact (h.consumeSession ready).respond _
  | edge level =>
    rcases execEdge_cases executed with ⟨-, rfl⟩ | ⟨-, room, rfl⟩ | ⟨armed, last, rfl⟩
    · exact h
    · exact h.appended fits room (edgeRecord_ts_lt level s)
    · exact h.closeSession_appended fits armed last (edgeRecord_ts_lt level s)

theorem step_keeps_inv {s t : State} (h : Inv s) (stepped : step s = .next t) : Inv t := by
  obtain ⟨wf, -, r, rest, -, ⟨-, -, rfl⟩ | ⟨i, -, executed⟩⟩ := step_cases stepped
  · exact h.of_unseen rfl
  · exact exec_keeps_inv (h.accept r rest) wf executed

theorem inv_resetWith (c : Config) : Inv (State.resetWith c) where
  armed_iff := by simp
  count_le := by simp
  capturing_room := by simp
  last_ts_newest := by simp
  new_edge_iff := by simp
  armed_both := by simp
  line_released := rfl
  buf_wf := rfl
  buf_listed := by simp
  session_initialised := by simp
  ready_nonempty := by simp
  in_range := ⟨by simp, Nat.two_pow_pos _, Nat.two_pow_pos _⟩

/-- What holds at the start and what every step keeps holds of every state reached. -/
theorem of_reaches {P : State → Prop} (keeps : ∀ s t, P s → step s = .next t → P t) {s t : State}
    (reached : Reaches s t) (h : P s) : P t := by
  induction reached with
  | refl => exact h
  | step _ stepped ih => exact keeps _ _ ih stepped

theorem Reaches.inv {s t : State} (reached : Reaches s t) (h : Inv s) : Inv t :=
  of_reaches (fun _ _ => step_keeps_inv) reached h

theorem Reaches.cfg_eq {s t : State} (reached : Reaches s t) : t.cfg = s.cfg :=
  of_reaches (P := fun u => u.cfg = s.cfg)
    (fun _ _ same stepped => by obtain ⟨-, -, -, cfg⟩ := step_takes_one stepped; exact cfg.trans same) reached rfl

end Sys2Proof.Machine

namespace Sys2Proof.Proofs

open Sys2Proof.Machine

/-- Settles O21: one lemma for each shared update, assembled over the cases of the instruction (`exec_keeps_inv`). -/
theorem everyStepKeepsTheInvariant : Obligations.EveryStepKeepsTheInvariant :=
  fun _ _ => step_keeps_inv

/-- Settles O20: the reset state is idle and empty, and released. -/
theorem invariantHoldsAtReset : Obligations.InvariantHoldsAtReset :=
  fun c _ => inv_resetWith c

end Sys2Proof.Proofs
end

section
/-! PROOF. The rows of the transition table, and what it says of the session, the fields, the events and the results
(10_state.md R28; 20_memory.md R55 to R58; 40_capture_session.md R101 to R109; 70_reset_and_hazards.md R230 to R238). -/

namespace Sys2Proof.Machine

open Sys2Proof.Claims

/-! ## Facts of the invariant -/

section
variable {s : State}

theorem Inv.armed_of_capturing (h : Inv s) (capturing : s.state = .capturing) : s.armed = true :=
  h.armed_iff.2 capturing

theorem Inv.disarmed_of_not_capturing (h : Inv s) (other : s.state ≠ .capturing) : s.armed = false :=
  Bool.eq_false_iff.2 fun armed => other (h.armed_iff.1 armed)

theorem Inv.disarmed_of_idle (h : Inv s) (idle : s.state = .idle) : s.armed = false :=
  h.disarmed_of_not_capturing (by simp [idle])

theorem Inv.idle_before_init (h : Inv s) (beforeInit : s.initDone = false) : s.state = .idle := by
  by_contra started
  simp [h.session_initialised started] at beforeInit

/-- Under the invariant the records of a session can be read. -/
theorem Inv.bufReadAll_ok (h : Inv s) : ∃ rs, bufReadAll s.count.toNat s = .ok rs :=
  bufReadAll_of_listed (fun i hi => (h.buf_listed i).2 hi) _ le_rfl

end

/-! ## Completion (40_capture_session.md R101 to R106) -/

/-- Where every entry below count can be read, so can all of them together. -/
theorem bufReadAll_of_bufRead {s : State} (held : ∀ j, j < s.count.toNat → ∃ r, bufRead j s = .ok r) :
    ∃ rs, bufReadAll s.count.toNat s = .ok rs := by
  refine bufReadAll_of_listed (fun j hj => ?_) _ le_rfl
  obtain ⟨r, hr⟩ := held j hj
  exact Option.isSome_of_eq_some ((bufRead_eq_ok_iff j s r).1 hr).2

/-- Every instruction but a READ in Ready completes in every state. -/
theorem exec_completes {i : Instr} {s : State}
    (readable : i = .read → s.state = .ready → ∃ rs, bufReadAll s.count.toNat s = .ok rs) : ∃ t, exec i s = .next t := by
  cases i with
  | init => exact ⟨_, execInit_eq s⟩
  | start =>
    by_cases initDone : s.initDone = true
    · by_cases idle : s.state = .idle
      · exact ⟨_, exec_start_of_idle initDone idle⟩
      · exact ⟨_, exec_start_of_not_idle initDone idle⟩
    · exact ⟨_, exec_start_of_not_initDone (Bool.eq_false_iff.2 initDone)⟩
  | service => exact ⟨_, execService_eq s⟩
  | read =>
    cases state : s.state with
    | idle => exact ⟨_, exec_read_of_idle state⟩
    | capturing => exact ⟨_, exec_read_of_capturing state⟩
    | ready =>
      obtain ⟨rs, hrs⟩ := readable rfl state
      exact ⟨_, exec_read_of_ready state hrs⟩
  | edge level => exact ⟨_, execEdge_eq level s⟩

theorem Inv.exec_completes {i : Instr} {s : State} (h : Inv s) : ∃ t, exec i s = .next t :=
  Machine.exec_completes fun _ _ => h.bufReadAll_ok

/-! ## How an instruction leaves and enters Capturing (20_memory.md R58, 40_capture_session.md R107, R108) -/

/-- The three ways out of Capturing. -/
theorem exec_leaves_capturing {i : Instr} {s t : State} (executed : exec i s = .next t)
    (capturing : s.state = .capturing) (left : t.state ≠ .capturing) :
    (∃ level, i = .edge level ∧ s.count.toNat + 1 = s.cfg.capacity ∧
        t = closeSession .ready (appended (edgeRecord level s) s)) ∨
      (i = .service ∧ ¬TimedOut s.cfg (nowMs s) s.startMs ∧ 1 ≤ s.count.toNat ∧
        Silent s.cfg (nowCnt s) s.lastTs ∧ t = closeSession .ready s) ∨
      (i = .service ∧ TimedOut s.cfg (nowMs s) s.startMs ∧ t = closeSession .idle s) := by
  cases i with
  | init => rcases execInit_cases executed with ⟨-, rfl⟩ | ⟨-, rfl⟩ <;> exact absurd capturing left
  | start =>
    rcases execStart_cases executed with ⟨-, rfl⟩ | ⟨-, idle, -⟩ | ⟨-, -, rfl⟩
    · exact absurd capturing left
    · simp [idle] at capturing
    · exact absurd capturing left
  | service =>
    rcases execService_cases executed with ⟨-, rfl⟩ | ⟨-, late, rfl⟩ | ⟨-, inTime, held, silent, rfl⟩ | ⟨-, -, -, rfl⟩
    · exact absurd capturing left
    · exact .inr (.inr ⟨rfl, (timeoutFires_iff_timedOut _ _ _).1 late, rfl⟩)
    · rw [← Bool.not_eq_true, timeoutFires_iff_timedOut] at inTime
      exact .inr (.inl ⟨rfl, inTime, held, (silenceFires_iff_silent _ _ _).1 silent, rfl⟩)
    · exact absurd capturing left
  | read =>
    rcases execRead_cases executed with ⟨idle, -⟩ | ⟨-, rfl⟩ | ⟨ready, -⟩
    · simp [idle] at capturing
    · exact absurd capturing left
    · simp [ready] at capturing
  | edge level =>
    rcases execEdge_cases executed with ⟨-, rfl⟩ | ⟨-, -, rfl⟩ | ⟨-, last, rfl⟩
    · exact absurd capturing left
    · exact absurd capturing left
    · exact .inl ⟨level, rfl, last, rfl⟩

theorem exec_enters_capturing {i : Instr} {s t : State} (executed : exec i s = .next t)
    (outside : s.state ≠ .capturing) (entered : t.state = .capturing) :
    i = .start ∧ s.initDone = true ∧ s.state = .idle := by
  cases i with
  | init => rcases execInit_cases executed with ⟨-, rfl⟩ | ⟨-, rfl⟩ <;> exact absurd entered outside
  | start =>
    rcases execStart_cases executed with ⟨-, rfl⟩ | ⟨initDone, idle, -⟩ | ⟨-, -, rfl⟩
    · exact absurd entered outside
    · exact ⟨rfl, initDone, idle⟩
    · exact absurd entered outside
  | service =>
    rcases execService_cases executed with ⟨-, rfl⟩ | ⟨-, -, rfl⟩ | ⟨-, -, -, -, rfl⟩ | ⟨capturing, -, -, -⟩
    · exact absurd entered outside
    · cases entered
    · cases entered
    · exact absurd capturing outside
  | read =>
    rcases execRead_cases executed with ⟨-, rfl⟩ | ⟨capturing, -⟩ | ⟨-, rs, -, rfl⟩
    · exact absurd entered outside
    · exact absurd capturing outside
    · cases entered
  | edge level =>
    rcases execEdge_cases executed with ⟨-, rfl⟩ | ⟨-, -, rfl⟩ | ⟨-, -, rfl⟩
    · exact absurd entered outside
    · exact absurd entered outside
    · cases entered

/-- A step whose session state changes runs an instruction. -/
theorem step_changes_state {s t : State} (stepped : step s = .next t) (changed : t.state ≠ s.state) :
    ∃ r rest i, s.arrivals = r :: rest ∧ t.arrivals = rest ∧ Issues r i ∧ exec i (accept r rest s) = .next t := by
  obtain ⟨-, -, r, rest, taken, ⟨-, -, rfl⟩ | ⟨i, decoded, executed⟩⟩ := step_cases stepped
  · exact absurd rfl changed
  · exact ⟨r, rest, i, taken, (exec_keeps executed).1, decoded, executed⟩

end Sys2Proof.Machine

namespace Sys2Proof.Proofs

open Sys2Proof.Machine Sys2Proof.Claims

/-- Settles O18: only READ in Ready needs its records, which are read one by one. -/
theorem everyInstructionCompletes : Obligations.EveryInstructionCompletes :=
  fun _ _ readable => exec_completes fun read ready => bufReadAll_of_bufRead (readable read ready)

/-- Settles O19: under the invariant a block before INIT is idle and disarmed. -/
theorem beforeInitOnlyStartFaults : Obligations.BeforeInitOnlyStartFaults := by
  intro s inv beforeInit
  have idle : s.state = .idle := inv.idle_before_init beforeInit
  exact ⟨exec_read_of_idle idle, exec_service_of_not_capturing (by simp [idle]),
    fun _ => exec_edge_of_disarmed (inv.disarmed_of_idle idle), exec_init_of_not_initDone beforeInit,
    exec_start_of_not_initDone beforeInit⟩

/-- Settles O23: each way out of Capturing is a `closeSession`, and EDGE is dropped while disarmed. -/
theorem closeDisarmsInTheSameStep : Obligations.CloseDisarmsInTheSameStep := by
  intro s t stepped capturing left
  obtain ⟨r, rest, i, -, -, -, executed⟩ := step_changes_state stepped (by simpa [capturing] using left)
  have disarmed : t.armed = false ∧ t.events = s.events ++ [.captureDisarm] := by
    rcases exec_leaves_capturing executed capturing left with ⟨_, -, -, rfl⟩ | ⟨-, -, -, -, rfl⟩ | ⟨-, -, rfl⟩ <;>
      exact ⟨rfl, rfl⟩
  exact ⟨disarmed.1, disarmed.2, fun _ => exec_edge_of_disarmed disarmed.1⟩

/-- Settles O24: the three ways out, on the state with the operation taken. -/
theorem sessionEndsInOneOfThreeWays : Obligations.SessionEndsInOneOfThreeWays := by
  intro s t _ stepped capturing left
  obtain ⟨r, rest, i, taken, arrivals, issued, executed⟩ := step_changes_state stepped (by simpa [capturing] using left)
  refine ⟨r, arrivals ▸ taken, ?_⟩
  rcases exec_leaves_capturing executed capturing left with
    ⟨level, rfl, last, rfl⟩ | ⟨rfl, inTime, held, silent, rfl⟩ | ⟨rfl, late, rfl⟩
  · exact .inl ⟨⟨level, issued⟩, last, rfl⟩
  · exact .inr (.inl ⟨issued, rfl, (count_pos_iff _).2 held, inTime, silent⟩)
  · exact .inr (.inr ⟨issued, rfl, late⟩)

/-- Settles O25: `exec_enters_capturing` on the state with the operation taken. -/
theorem sessionBeginsOnlyByStart : Obligations.SessionBeginsOnlyByStart := by
  intro s t stepped outside entered
  obtain ⟨r, rest, i, taken, arrivals, issued, executed⟩ :=
    step_changes_state stepped (by simpa [entered] using outside.symm)
  obtain ⟨rfl, initDone, idle⟩ := exec_enters_capturing executed outside entered
  exact ⟨idle, initDone, r, arrivals ▸ taken, issued⟩

end Sys2Proof.Proofs
end

section
/-! PROOF. The complete transition table, and what follows from it for runs (40_capture_session.md R107, R109; 10_state.md
R33). -/

namespace Sys2Proof.Machine

open Sys2Proof.Claims

/-! ## The codes READ can answer (30_encoding.md R77) -/

theorem frameResult_code (f : Frame) : (frameResult f).code = .ok ∨ (frameResult f).code = .checksumMismatch := by
  refine or_iff_not_imp_left.2 fun notOk => ?_
  rw [frameResult_of_not_ok notOk]
  rfl

theorem decodeFrame_code (c : Config) (rs : List EdgeRecord) :
    (decodeFrame c rs).code = .ok ∨ (decodeFrame c rs).code = .checksumMismatch ∨
      (decodeFrame c rs).code = .framingError := by
  by_cases enough : 41 ≤ (pulses c rs).length
  · rw [decodeFrame_of_le_length enough]
    exact (frameResult_code _).imp_right .inl
  · rw [decodeFrame_of_length_lt (Nat.not_le.1 enough)]
    exact .inr (.inr rfl)

/-- A decoded result is never BUSY. -/
theorem codeField_decodeFrame_ne_busy (c : Config) (rs : List EdgeRecord) : codeField (decodeFrame c rs).word ≠ 1#3 := by
  rw [codeField_word]
  rcases decodeFrame_code c rs with h | h | h <;> rw [h] <;> decide

/-! ## The rows of the table (40_capture_session.md R107) -/

/-- The row of `i` in state `s` leads to `t` and answers the results `ws`. -/
structure TableRow (s : State) (i : Instr) (t : State) (ws : List ResultWord) : Prop where
  target : t = { tableFields s i t.buf with
    state := nextSession s i, events := s.events ++ tableEvents s i, results := s.results ++ ws }
  buffer : s.cfg.wf = true → TableBuffer s i t
  results : TableResults s i ws

section
variable {s : State} {i : Instr}

/-! The entries of a row whose target is the state it starts from and that appends no record. -/

theorem tableEvents_of_stays (stays : nextSession s i = s.state) : tableEvents s i = [] := by
  unfold tableEvents
  split
  · next idle => simp [nextSession, idle] at stays
  · next capturing => exact if_pos (stays.trans capturing)
  · rfl

theorem tableFields_of_stays (h : Inv s) (stays : nextSession s i = s.state)
    (appendsNone : s.state = .capturing → ∀ level, i ≠ .edge level) (b : Memory) : tableFields s i b = s := by
  unfold tableFields
  split
  · next idle => simp [nextSession, idle] at stays
  · next level capturing => exact absurd rfl (appendsNone capturing level)
  · next capturing =>
    rw [stays.trans capturing, decide_eq_true rfl, ← h.armed_of_capturing capturing]
  · rfl

theorem tableBuffer_of_stays {t : State} (stays : nextSession s i = s.state)
    (appendsNone : s.state = .capturing → ∀ level, i ≠ .edge level) (kept : t.buf = s.buf) : TableBuffer s i t := by
  unfold TableBuffer
  split
  · next idle => simp [nextSession, idle] at stays
  · next level capturing => exact absurd rfl (appendsNone capturing level)
  · exact kept

theorem tableResults_nil (notRead : i ≠ .read) : TableResults s i [] := by
  unfold TableResults
  split
  case h_4 => rfl
  all_goals exact absurd rfl notRead

/-- A row marked none changes the results only. -/
theorem tableRow_none (h : Inv s) (stays : nextSession s i = s.state)
    (appendsNone : s.state = .capturing → ∀ level, i ≠ .edge level) {ws : List ResultWord}
    (results : TableResults s i ws) : TableRow s i { s with results := s.results ++ ws } ws where
  target := by
    rw [stays, tableEvents_of_stays stays, tableFields_of_stays h stays appendsNone, List.append_nil]
  buffer _ := tableBuffer_of_stays stays appendsNone rfl
  results := results

theorem tableRow_unchanged (h : Inv s) (stays : nextSession s i = s.state)
    (appendsNone : s.state = .capturing → ∀ level, i ≠ .edge level) (notRead : i ≠ .read) : TableRow s i s [] := by
  have row := tableRow_none h stays appendsNone (tableResults_nil notRead)
  rwa [List.append_nil] at row

/-! The target of each row by itself. -/

theorem nextSession_init : nextSession s .init = s.state := by
  cases state : s.state <;> simp [nextSession, state]

theorem nextSession_start_of_not_idle (h : s.state ≠ .idle) : nextSession s .start = s.state := by
  cases state : s.state <;> simp_all [nextSession]

theorem nextSession_read_of_not_ready (h : s.state ≠ .ready) : nextSession s .read = s.state := by
  cases state : s.state <;> simp_all [nextSession]

theorem nextSession_of_not_capturing (h : s.state ≠ .capturing) :
    nextSession s .service = s.state ∧ ∀ level, nextSession s (.edge level) = s.state := by
  cases state : s.state <;> simp_all [nextSession]

/-! The rows, by instruction. -/

theorem tableRow_of_init (h : Inv s) (initDone : s.initDone = true) :
    ∃ t ws, exec .init s = .next t ∧ TableRow s .init t ws :=
  ⟨s, [], exec_init_of_initDone initDone, tableRow_unchanged h nextSession_init (by simp) (by simp)⟩

theorem tableRow_of_start (h : Inv s) (initDone : s.initDone = true) :
    ∃ t ws, exec .start s = .next t ∧ TableRow s .start t ws := by
  by_cases idle : s.state = .idle
  case pos =>
    refine ⟨_, [], exec_start_of_idle initDone idle, ?target, fun _ => ?buffer, tableResults_nil (by simp)⟩
    case target =>
      simp only [nextSession, tableEvents, tableFields, idle, List.append_nil]
      rfl
    case buffer => simp [TableBuffer, idle]
  case neg =>
    exact ⟨s, [], exec_start_of_not_idle initDone idle,
      tableRow_unchanged h (nextSession_start_of_not_idle idle) (by simp) (by simp)⟩

/-- The row of a SERVICE that ends the session into `n`. -/
theorem tableRow_closeSession {n : SessionState} (capturing : s.state = .capturing) (leaves : n ≠ .capturing)
    (target : nextSession s .service = n) : TableRow s .service (closeSession n s) [] where
  target := by
    simp only [tableEvents, tableFields, capturing, target, leaves, decide_false, if_false, List.append_nil]
    rfl
  buffer _ := by simp [TableBuffer, capturing]
  results := tableResults_nil (by simp)

theorem tableRow_of_service (h : Inv s) : ∃ t ws, exec .service s = .next t ∧ TableRow s .service t ws := by
  obtain ⟨t, executed⟩ := h.exec_completes (i := .service)
  refine ⟨t, [], executed, ?_⟩
  rcases execService_cases executed with
    ⟨other, rfl⟩ | ⟨capturing, late, rfl⟩ | ⟨capturing, inTime, held, silent, rfl⟩ | ⟨capturing, inTime, waiting, rfl⟩
  · exact tableRow_unchanged h (nextSession_of_not_capturing other).1 (by simp) (by simp)
  · exact tableRow_closeSession capturing (by simp) (by simp [nextSession, capturing, late])
  · exact tableRow_closeSession capturing (by simp) (by simp [nextSession, capturing, inTime, held, silent])
  · exact tableRow_unchanged h (by simpa [nextSession, capturing, inTime] using waiting) (by simp) (by simp)

theorem tableRow_of_read (h : Inv s) : ∃ t ws, exec .read s = .next t ∧ TableRow s .read t ws := by
  cases state : s.state with
  | idle =>
    refine ⟨_, [timedOutWord], exec_read_of_idle state, tableRow_none h ?_ (by simp) ?_⟩
    · exact nextSession_read_of_not_ready (by simp [state])
    · simp only [TableResults, state]
      rfl
  | capturing =>
    refine ⟨_, [busyWord], exec_read_of_capturing state, tableRow_none h ?_ (by simp) ?_⟩
    · exact nextSession_read_of_not_ready (by simp [state])
    · simp only [TableResults, state]
      rfl
  | ready =>
    obtain ⟨rs, hrs⟩ := h.bufReadAll_ok
    refine ⟨_, [(decodeFrame s.cfg rs).word], exec_read_of_ready state hrs, ?target, fun _ => ?buffer, ?results⟩
    case target =>
      simp only [nextSession, tableEvents, tableFields, state, List.append_nil]
      rfl
    case buffer => simp [TableBuffer, state]
    case results =>
      simp only [TableResults, state]
      refine ⟨_, rfl, ?_⟩
      rw [codeField_word]
      rcases decodeFrame_code s.cfg rs with code | code | code <;> rw [code] <;> decide

/-- The buffer after an accepted edge, whether or not the session closes with it. -/
theorem tableBuffer_of_edge {level : Bool} {t : State} (wf : s.cfg.wf = true) (capturing : s.state = .capturing)
    (room : s.count.toNat < s.cfg.capacity) (buf : t.buf = (appended (edgeRecord level s) s).buf)
    (count : t.count = s.count + 1#8) : TableBuffer s (.edge level) t := by
  have grows := count_succ ((Config.wf_iff s.cfg).1 wf).1.2 room
  simp only [TableBuffer, capturing]
  intro j
  rw [bufRead_congr buf count, bufRead_appended _ grows]
  rfl

theorem tableRow_of_edge (h : Inv s) (level : Bool) :
    ∃ t ws, exec (.edge level) s = .next t ∧ TableRow s (.edge level) t ws := by
  by_cases capturing : s.state = .capturing
  case neg =>
    exact ⟨s, [], exec_edge_of_disarmed (h.disarmed_of_not_capturing capturing),
      tableRow_unchanged h ((nextSession_of_not_capturing capturing).2 level) (fun is => absurd is capturing) (by simp)⟩
  case pos =>
    have armed := h.armed_of_capturing capturing
    have room := h.capturing_room capturing
    by_cases last : s.count.toNat + 1 = s.cfg.capacity
    case pos =>
      refine ⟨_, [], exec_edge_of_last_slot armed last, ?_, fun wf => ?_, tableResults_nil (by simp)⟩
      · simp [closeSession, emit, appended, edgeRecord, edgeTs, nextSession, tableEvents, tableFields, capturing, last]
      · exact tableBuffer_of_edge wf capturing room rfl rfl
    case neg =>
      refine ⟨_, [], exec_edge_of_room armed (by omega), ?_, fun wf => ?_, tableResults_nil (by simp)⟩
      · simp [appended, edgeRecord, edgeTs, nextSession, tableEvents, tableFields, capturing, armed, last]
      · exact tableBuffer_of_edge wf capturing room rfl rfl

theorem exec_tableRow (h : Inv s) (initDone : s.initDone = true) : ∃ t ws, exec i s = .next t ∧ TableRow s i t ws := by
  cases i with
  | init => exact tableRow_of_init h initDone
  | start => exact tableRow_of_start h initDone
  | service => exact tableRow_of_service h
  | read => exact tableRow_of_read h
  | edge level => exact tableRow_of_edge h level

end

end Sys2Proof.Machine

namespace Sys2Proof.Proofs

open Sys2Proof.Machine Sys2Proof.Claims

/-- Settles O26: one row lemma for each instruction; a row marked none is `tableRow_none`. -/
theorem transitionTableRows : Obligations.TransitionTableRows := by
  intro i s inv initDone
  obtain ⟨t, ws, executed, row⟩ := exec_tableRow (i := i) inv initDone
  exact ⟨t, ws, executed, row.target, row.buffer, row.results⟩

end Sys2Proof.Proofs
end

section
/-! PROOF. What the operations change, report and repeat, and what a run never undoes (10_state.md R28, R33;
20_memory.md R55, R57; 40_capture_session.md R109; 00_scope.md R19; 70_reset_and_hazards.md R230, R238). -/

namespace Sys2Proof.Machine

open Sys2Proof.Claims

/-! ## Ready (10_state.md R33, item 5) -/

/-- A Ready session keeps its records, and only a READ ends it: the rows of the transition table. -/
theorem exec_of_ready {i : Instr} {s t : State} (h : Inv s) (wf : s.cfg.wf = true) (ready : s.state = .ready)
    (executed : exec i s = .next t) :
    t.buf = s.buf ∧ t.count = s.count ∧ (t.state = .ready ∨ (t.state = .idle ∧ i = .read)) := by
  obtain ⟨u, ws, row_executed, row⟩ := exec_tableRow (i := i) h (h.session_initialised (by simp [ready]))
  obtain rfl : t = u := by simpa [executed] using row_executed
  have buf : t.buf = s.buf := by simpa [TableBuffer, ready] using row.buffer wf
  have count : t.count = s.count := by simpa [tableFields, ready] using congrArg State.count row.target
  have state : t.state = nextSession s i := congrArg State.state row.target
  refine ⟨buf, count, ?_⟩
  rw [state]
  cases i <;> simp [nextSession, ready]

theorem step_of_ready {s t : State} (h : Inv s) (ready : s.state = .ready) (stepped : step s = .next t) :
    t.buf = s.buf ∧ t.count = s.count ∧
      (t.state = .ready ∨ (t.state = .idle ∧ ∃ r, s.arrivals = r :: t.arrivals ∧ Issues r .read)) := by
  obtain ⟨wf, -, r, rest, taken, ⟨-, -, rfl⟩ | ⟨i, decoded, executed⟩⟩ := step_cases stepped
  · exact ⟨rfl, rfl, .inl ready⟩
  · obtain ⟨buf, count, state⟩ := exec_of_ready (h.accept r rest) wf ready executed
    refine ⟨buf, count, state.imp_right fun ⟨idle, read⟩ => ⟨idle, r, ?_, read ▸ decoded⟩⟩
    rw [(exec_keeps executed).1]
    exact taken

/-! ## INIT's effect stays (70_reset_and_hazards.md R230) -/

theorem exec_keeps_initDone {i : Instr} {s t : State} (executed : exec i s = .next t) (initDone : s.initDone = true) :
    t.initDone = true := by
  cases i with
  | init => rcases execInit_cases executed with ⟨-, rfl⟩ | ⟨-, rfl⟩ <;> [exact initDone; rfl]
  | start => rcases execStart_cases executed with ⟨-, rfl⟩ | ⟨-, -, rfl⟩ | ⟨-, -, rfl⟩ <;> exact initDone
  | service =>
    rcases execService_cases executed with ⟨-, rfl⟩ | ⟨-, -, rfl⟩ | ⟨-, -, -, -, rfl⟩ | ⟨-, -, -, rfl⟩ <;> exact initDone
  | read => rcases execRead_cases executed with ⟨-, rfl⟩ | ⟨-, rfl⟩ | ⟨-, rs, -, rfl⟩ <;> exact initDone
  | edge level => rcases execEdge_cases executed with ⟨-, rfl⟩ | ⟨-, -, rfl⟩ | ⟨-, -, rfl⟩ <;> exact initDone

theorem step_keeps_initDone {s t : State} (stepped : step s = .next t) (initDone : s.initDone = true) :
    t.initDone = true := by
  obtain ⟨-, -, r, rest, -, ⟨-, -, rfl⟩ | ⟨i, -, executed⟩⟩ := step_cases stepped
  · exact initDone
  · exact exec_keeps_initDone executed initDone

/-- A run that has faulted goes nowhere. -/
theorem Reaches.eq_of_fault {s t : State} (reached : Reaches s t) (faulted : s.fault ≠ none) : t = s := by
  induction reached with
  | refl => rfl
  | step _ stepped same =>
    obtain ⟨-, running, -⟩ := step_cases stepped
    rw [same] at running
    exact absurd running faulted

/-! ## The reported events (10_state.md R28) -/

/-- An instruction that leaves `armed` and reports neither of the two events agrees with R28. -/
theorem armed_unreported {s t : State} {es : List Event} (kept : t.armed = s.armed) (arm : Event.captureArm ∉ es)
    (disarm : Event.captureDisarm ∉ es) :
    (Event.captureArm ∈ es ↔ s.armed = false ∧ t.armed = true) ∧
      (Event.captureDisarm ∈ es ↔ s.armed = true ∧ t.armed = false) := by
  simp [kept, arm, disarm]

/-- The end of a session reports the fall of `armed`. -/
theorem armed_falls {s t : State} {es : List Event} (events : es = [.captureDisarm]) (before : s.armed = true)
    (after : t.armed = false) :
    (Event.captureArm ∈ es ↔ s.armed = false ∧ t.armed = true) ∧
      (Event.captureDisarm ∈ es ↔ s.armed = true ∧ t.armed = false) := by
  simp [events, before, after]

/-- The beginning of a session reports the rise of `armed`. -/
theorem armed_rises {s t : State} {es : List Event} (events : es = wakeAndArm s.cfg) (before : s.armed = false)
    (after : t.armed = true) :
    (Event.captureArm ∈ es ↔ s.armed = false ∧ t.armed = true) ∧
      (Event.captureDisarm ∈ es ↔ s.armed = true ∧ t.armed = false) := by
  simp [events, before, after, wakeAndArm]

end Sys2Proof.Machine

namespace Sys2Proof.Proofs

open Sys2Proof.Machine Sys2Proof.Claims

/-- Settles O22: every reached state has the invariant, and the step from Ready is `step_of_ready`. -/
theorem reachableStatesMeetTheSpecInvariants : Obligations.ReachableStatesMeetTheSpecInvariants := by
  intro c l s _ reached
  have inv : Inv s := reached.inv ((inv_resetWith c).of_unseen rfl)
  have cfg : s.cfg = c := reached.cfg_eq
  exact ⟨inv.armed_iff, ⟨cfg ▸ inv.count_le, cfg ▸ inv.capturing_room⟩, inv.last_ts_newest, inv.new_edge_iff,
    fun ready _ => step_of_ready inv ready, inv.armed_both, inv.line_released⟩

/-- Settles O27: READ answers BUSY in Capturing only, and otherwise leaves Idle, where START begins a session. -/
theorem recoveryAfterReadIsUniform : Obligations.RecoveryAfterReadIsUniform := by
  intro s t executed
  have restart (idle : t.state = .idle) (initDone : t.initDone = true) :
      ∃ u, exec .start t = .next u ∧ u.state = .capturing ∧ u.count = 0#8 ∧ u.armed = true :=
    ⟨_, exec_start_of_idle initDone idle, rfl, rfl, rfl⟩
  rcases execRead_cases executed with ⟨idle, rfl⟩ | ⟨capturing, rfl⟩ | ⟨-, rs, -, rfl⟩
  · exact ⟨timedOutWord, rfl, fun busy => absurd busy (by decide), fun _ => ⟨idle, restart idle⟩⟩
  · exact ⟨busyWord, rfl, fun _ => capturing, fun notBusy => absurd rfl notBusy⟩
  · exact ⟨_, rfl, fun busy => absurd busy (codeField_decodeFrame_ne_busy s.cfg rs), fun _ => ⟨rfl, restart rfl⟩⟩

/-- Settles O28: in each case of an instruction's case lemma, the fields it may not write are those of the old state. -/
theorem writersOfEachField : Obligations.WritersOfEachField := by
  intro i s t executed
  cases i with
  | init => rcases execInit_cases executed with ⟨-, rfl⟩ | ⟨-, rfl⟩ <;> simp
  | start => rcases execStart_cases executed with ⟨-, rfl⟩ | ⟨-, -, rfl⟩ | ⟨-, -, rfl⟩ <;> simp
  | service =>
    rcases execService_cases executed with ⟨-, rfl⟩ | ⟨-, -, rfl⟩ | ⟨-, -, -, -, rfl⟩ | ⟨-, -, -, rfl⟩ <;> simp
  | read => rcases execRead_cases executed with ⟨-, rfl⟩ | ⟨-, rfl⟩ | ⟨-, rs, -, rfl⟩ <;> simp
  | edge level => rcases execEdge_cases executed with ⟨-, rfl⟩ | ⟨-, -, rfl⟩ | ⟨-, -, rfl⟩ <;> simp

/-- Settles O30: `armed` rises with the wake sequence, falls with `closeSession`, and every other case reports neither. -/
theorem armedFollowsTheReportedEvents : Obligations.ArmedFollowsTheReportedEvents := by
  intro i s t es inv executed appended_events
  have quiet (armed : t.armed = s.armed) (events : t.events = s.events) :
      (Event.captureArm ∈ es ↔ s.armed = false ∧ t.armed = true) ∧
        (Event.captureDisarm ∈ es ↔ s.armed = true ∧ t.armed = false) := by
    obtain rfl : es = [] := List.self_eq_append_right.1 (events.symm.trans appended_events)
    exact armed_unreported armed (by simp) (by simp)
  have emitted {es' : List Event} (events : t.events = s.events ++ es') : es = es' :=
    List.append_cancel_left (appended_events.symm.trans events)
  cases i with
  | init =>
    rcases execInit_cases executed with ⟨-, rfl⟩ | ⟨-, rfl⟩
    · exact quiet rfl rfl
    · rw [emitted rfl]
      exact armed_unreported rfl (by simp) (by simp)
  | start =>
    rcases execStart_cases executed with ⟨-, rfl⟩ | ⟨-, idle, rfl⟩ | ⟨-, -, rfl⟩
    · exact quiet rfl rfl
    · exact armed_rises (emitted rfl) (inv.disarmed_of_idle idle) rfl
    · exact quiet rfl rfl
  | service =>
    rcases execService_cases executed with ⟨-, rfl⟩ | ⟨capturing, -, rfl⟩ | ⟨capturing, -, -, -, rfl⟩ | ⟨-, -, -, rfl⟩
    · exact quiet rfl rfl
    · exact armed_falls (emitted rfl) (inv.armed_of_capturing capturing) rfl
    · exact armed_falls (emitted rfl) (inv.armed_of_capturing capturing) rfl
    · exact quiet rfl rfl
  | read => rcases execRead_cases executed with ⟨-, rfl⟩ | ⟨-, rfl⟩ | ⟨-, rs, -, rfl⟩ <;> exact quiet rfl rfl
  | edge level =>
    rcases execEdge_cases executed with ⟨-, rfl⟩ | ⟨-, -, rfl⟩ | ⟨armed, -, rfl⟩
    · exact quiet rfl rfl
    · exact quiet rfl rfl
    · exact armed_falls (emitted rfl) armed rfl

/-- Settles O31: the events are O29's, and the one word is READ's, a bare code unless it is OK. -/
theorem observationOnlyGrows : Obligations.ObservationOnlyGrows := by
  intro s t stepped
  obtain ⟨-, -, r, rest, taken, ⟨-, -, rfl⟩ | ⟨i, decoded, executed⟩⟩ := step_cases stepped
  · exact ⟨[], [], (List.append_nil _).symm, (List.append_nil _).symm, .inl rfl⟩
  obtain ⟨es, events, -⟩ := eventsOfEachOperation i _ t executed
  by_cases read : i = .read
  case neg =>
    exact ⟨es, [], events, (exec_results_of_ne_read read executed).trans (List.append_nil _).symm, .inl rfl⟩
  case pos =>
    subst read
    obtain ⟨result, results, bare⟩ := execRead_results executed
    refine ⟨es, [result.word], events, results, .inr ⟨r, result.word, ?_, decoded, rfl, ?_, ?_, fun notOk => ?_⟩⟩
    · rw [(exec_keeps executed).1]
      exact taken
    · rw [codeField_word]
      cases result.code <;> decide
    · exact word_extractLsb'_reserved result
    · rw [bare fun ok => notOk (by rw [codeField_word, ok]; rfl)]
      exact ⟨tRawField_word _, hRawField_word _⟩

/-- Settles O32: each of the three is kept by every step, a fault because there is none to take. -/
theorem noStepResetsTheBlock : Obligations.NoStepResetsTheBlock := by
  intro s t reached
  refine ⟨fun initDone => ?_, reached.cfg_eq, reached.eq_of_fault⟩
  exact of_reaches (P := fun u => u.initDone = true) (fun _ _ done stepped => step_keeps_initDone stepped done) reached
    initDone

/-- Settles O33: INIT and SERVICE leave a state in which they do nothing; READ leaves Capturing and Idle as they are and
Ready for Idle. -/
theorem sideEffectsAndIdempotency : Obligations.SideEffectsAndIdempotency := by
  refine fun s t => ⟨fun executed => ?init, fun executed => ?service, fun executed notReady => ?read,
    fun executed ready => ?ready⟩
  case init =>
    rcases execInit_cases executed with ⟨initDone, rfl⟩ | ⟨-, rfl⟩
    · exact executed
    · exact exec_init_of_initDone rfl
  case service =>
    rcases execService_cases executed with ⟨-, rfl⟩ | ⟨-, -, rfl⟩ | ⟨-, -, -, -, rfl⟩ | ⟨-, -, -, rfl⟩
    · exact executed
    · exact exec_service_of_not_capturing (by simp)
    · exact exec_service_of_not_capturing (by simp)
    · exact executed
  case read =>
    rcases execRead_cases executed with ⟨idle, rfl⟩ | ⟨capturing, rfl⟩ | ⟨ready, -⟩
    · exact ⟨_, rfl, exec_read_of_idle idle⟩
    · exact ⟨_, rfl, exec_read_of_capturing capturing⟩
    · exact absurd ready notReady
  case ready =>
    rcases execRead_cases executed with ⟨idle, -⟩ | ⟨capturing, -⟩ | ⟨-, rs, -, rfl⟩
    · simp [idle] at ready
    · simp [capturing] at ready
    · exact exec_read_of_idle rfl

/-- Settles O34: START in Ready changes nothing. -/
theorem startInReadyKeepsTheResult : Obligations.StartInReadyKeepsTheResult := by
  intro s t ready initDone executed
  rw [exec_start_of_not_idle initDone (by simp [ready])] at executed
  cases executed
  rfl

/-- Settles O39: the duty arms the block, the invariant leaves room, and the accepted record reads at index count. -/
theorem deliveredEdgeIsRecorded : Obligations.DeliveredEdgeIsRecorded := by
  intro s t r rest level inv duty taken issued stepped
  have armed : s.armed = true := duty.1 r rest level taken issued
  obtain ⟨wf, running, -⟩ := step_cases stepped
  rw [step_of_decode wf running taken issued] at stepped
  obtain ⟨-, -, records⟩ := edgeRecordsOneEdge level (accept r rest s) ((Config.wf_iff s.cfg).1 wf).1.2
  obtain ⟨u, executed, count, reads, -⟩ := records armed (inv.capturing_room (inv.armed_iff.1 armed))
  obtain rfl : t = u := by simpa [stepped] using executed
  exact ⟨count, (reads s.count.toNat).trans (if_pos rfl)⟩

end Sys2Proof.Proofs
end

section
/-! PROOF. What the decoder's result depends on, the frames of the stimulus, and the checksum (41_frame_decoder.md R152 to
R165, 30_encoding.md R85). -/

namespace Sys2Proof.Machine

open Sys2Proof.Claims

/-! ## The records a width comes from (41_frame_decoder.md R152) -/

theorem nextFalling_append {rs : List EdgeRecord} {f : EdgeRecord} (h : nextFalling rs = some f) (xs : List EdgeRecord) :
    nextFalling (rs ++ xs) = some f := by
  rw [nextFalling_eq_find?] at h ⊢
  rw [List.find?_append, h]
  rfl

/-- Later records change no width already collected. -/
theorem pulsesUpTo_prefix_append (c : Config) (n : Nat) (rs xs : List EdgeRecord) :
    pulsesUpTo c n rs <+: pulsesUpTo c n (rs ++ xs) := by
  induction rs generalizing n with
  | nil => simp
  | cons r rs ih =>
    obtain ⟨t, level⟩ := r
    rw [List.cons_append]
    cases level with
    | false => rw [pulsesUpTo_fall, pulsesUpTo_fall]; exact ih n
    | true =>
      cases partner : nextFalling rs with
      | none => rw [pulsesUpTo_rise_none c n t partner]; exact List.nil_prefix
      | some f =>
        cases n with
        | zero => simp
        | succ n =>
          rw [pulsesUpTo_rise_some c n t partner, pulsesUpTo_rise_some c n t (nextFalling_append partner xs)]
          exact (List.prefix_cons_inj _).2 (ih n)

/-- Every width needs a record after the one it starts at. -/
theorem length_pulsesUpTo_le (c : Config) (n : Nat) (rs : List EdgeRecord) :
    (pulsesUpTo c n rs).length ≤ rs.length - 1 := by
  induction rs generalizing n with
  | nil => simp
  | cons r rs ih =>
    obtain ⟨t, level⟩ := r
    rw [List.length_cons, Nat.add_sub_cancel]
    cases level with
    | false => rw [pulsesUpTo_fall]; exact (ih n).trans (Nat.sub_le _ _)
    | true =>
      cases partner : nextFalling rs with
      | none => rw [pulsesUpTo_rise_none c n t partner]; exact Nat.zero_le _
      | some f =>
        have nonempty : rs ≠ [] := by rintro rfl; cases partner
        cases n with
        | zero => simp
        | succ n =>
          rw [pulsesUpTo_rise_some c n t partner, List.length_cons]
          have := List.length_pos_iff.2 nonempty
          have := ih n
          omega

theorem length_pulses_le (c : Config) (rs : List EdgeRecord) : (pulses c rs).length ≤ c.maxPulses := by
  rw [Proofs.pulsesPairEveryRisingRecord c rs]
  exact List.length_take_le _ _

/-- The scan reads CNT_BITS of the configuration and nothing else. -/
theorem pulsesUpTo_congr {c d : Config} (same : d.cntBits = c.cntBits) (n : Nat) (rs : List EdgeRecord) :
    pulsesUpTo d n rs = pulsesUpTo c n rs := by
  induction rs generalizing n with
  | nil => simp
  | cons r rs ih =>
    cases n with
    | zero => simp
    | succ n => simp only [pulsesUpTo, pulseWidth, same, ih]

/-- A record moved by `d` counter units. -/
def shiftRecord (c : Config) (d : Nat) (r : EdgeRecord) : EdgeRecord := { r with ts := addMod c.cntBits r.ts d }

theorem nextFalling_map_shift (c : Config) (d : Nat) (rs : List EdgeRecord) :
    nextFalling (rs.map (shiftRecord c d)) = (nextFalling rs).map (shiftRecord c d) := by
  simp only [nextFalling_eq_find?, List.find?_map]
  rfl

theorem pulsesUpTo_map_shift (c : Config) (d n : Nat) (rs : List EdgeRecord) :
    pulsesUpTo c n (rs.map (shiftRecord c d)) = pulsesUpTo c n rs := by
  induction rs generalizing n with
  | nil => simp
  | cons r rs ih =>
    obtain ⟨t, level⟩ := r
    rw [List.map_cons]
    change pulsesUpTo c n ({ ts := addMod c.cntBits t d, lvl := level } :: _) = _
    cases level with
    | false => rw [pulsesUpTo_fall, pulsesUpTo_fall, ih]
    | true =>
      cases partner : nextFalling rs with
      | none =>
        rw [pulsesUpTo_rise_none c n t partner, pulsesUpTo_rise_none]
        rw [nextFalling_map_shift, partner, Option.map_none]
      | some f =>
        cases n with
        | zero => simp
        | succ n =>
          have partner' := nextFalling_map_shift c d rs
          rw [partner, Option.map_some] at partner'
          rw [pulsesUpTo_rise_some c n t partner, pulsesUpTo_rise_some c n _ partner', ih]
          exact congrArg (· :: _) (subMod_shift c.cntBits f.ts t d)

/-! ## Alternating lists (41_frame_decoder.md R153) -/

/-- The records of rising and falling pairs. -/
def pairRecords (ps : List (Nat × Nat)) : List EdgeRecord := (ps.map fun p => [rise p.1, fall p.2]).flatten

/-- The widths of rising and falling pairs. -/
def pairWidths (c : Config) (ps : List (Nat × Nat)) : List Nat := ps.map fun p => pulseWidth c p.1 p.2

theorem pairRecords_cons (p : Nat × Nat) (ps : List (Nat × Nat)) :
    pairRecords (p :: ps) = rise p.1 :: fall p.2 :: pairRecords ps := rfl

theorem pulsesUpTo_pairRecords_append (c : Config) (n : Nat) (ps : List (Nat × Nat)) {trail : List EdgeRecord}
    (noFall : nextFalling trail = none) : pulsesUpTo c n (pairRecords ps ++ trail) = (pairWidths c ps).take n := by
  induction ps generalizing n with
  | nil => exact (pulsesUpTo_of_no_fall c n noFall).trans List.take_nil.symm
  | cons p ps ih =>
    cases n with
    | zero => simp
    | succ n =>
      rw [pairRecords_cons]
      refine (pulsesUpTo_rise_some c n p.1 (nextFalling_fall p.2 _)).trans ?_
      exact congrArg (pulseWidth c p.1 p.2 :: ·) ((pulsesUpTo_fall c n p.2 _).trans (ih n))

theorem pairResuming_pairRecords_append (c : Config) (ps : List (Nat × Nat)) {trail : List EdgeRecord}
    (noWidth : pairResuming c none trail = []) : pairResuming c none (pairRecords ps ++ trail) = pairWidths c ps := by
  induction ps with
  | nil => exact noWidth
  | cons p ps ih => exact congrArg (pulseWidth c p.1 p.2 :: ·) ih

theorem pulses_pairRecords (c : Config) (ps : List (Nat × Nat)) :
    pulses c (pairRecords ps) = (pairWidths c ps).take c.maxPulses := by
  have widths := pulsesUpTo_pairRecords_append c c.maxPulses ps (trail := []) rfl
  rwa [List.append_nil] at widths

/-- 41 rising records that share one falling record (41_frame_decoder.md R152). -/
def sharedFall : List EdgeRecord := List.replicate 41 (rise 0) ++ [fall 0]

/-! ## What a result depends on (41_frame_decoder.md R154, R165) -/

theorem dataPulses_eq_drop_take (ws : List CounterValue) : dataPulses ws = (ws.take 41).drop 1 :=
  List.take_drop

theorem decodeFrame_congr {c d : Config} {rs xs : List EdgeRecord} (threshold : d.bitThreshold = c.bitThreshold)
    (enough : 41 ≤ (pulses d xs).length ↔ 41 ≤ (pulses c rs).length)
    (data : ((pulses d xs).take 41).drop 1 = ((pulses c rs).take 41).drop 1) : decodeFrame d xs = decodeFrame c rs := by
  by_cases h : 41 ≤ (pulses c rs).length
  · rw [decodeFrame_of_le_length h, decodeFrame_of_le_length (enough.2 h)]
    simp only [frameBits, dataPulses_eq_drop_take, data]
    unfold classify
    rw [threshold]
  · rw [decodeFrame_of_length_lt (Nat.not_le.1 h), decodeFrame_of_length_lt (Nat.not_le.1 fun h' => h (enough.1 h'))]

theorem le_length_iff_of_take_eq {n : Nat} {ws vs : List Nat} (same : ws.take n = vs.take n) :
    n ≤ ws.length ↔ n ≤ vs.length := by
  have := congrArg List.length same
  simp only [List.length_take] at this
  omega

theorem decodeFrame_congr_take {c d : Config} {rs xs : List EdgeRecord} (threshold : d.bitThreshold = c.bitThreshold)
    (same : (pulses d xs).take 41 = (pulses c rs).take 41) : decodeFrame d xs = decodeFrame c rs :=
  decodeFrame_congr threshold (le_length_iff_of_take_eq same) (by rw [same])

end Sys2Proof.Machine

namespace Sys2Proof.Proofs

open Sys2Proof.Machine Sys2Proof.Claims

/-- Settles O42: a leading falling record is skipped and a trailing rising one has no partner; each pair gives its width
under either reading. -/
theorem alternatingListsGiveOneWidthPerPair : Obligations.AlternatingListsGiveOneWidthPerPair := by
  intro c ps lead trail rs hlead htrail records
  have noFall : nextFalling trail = none := by rcases htrail with rfl | ⟨y, rfl⟩ <;> rfl
  have noWidth : pairResuming c none trail = [] := by rcases htrail with rfl | ⟨y, rfl⟩ <;> rfl
  have scanned : pulses c rs = (pairWidths c ps).take c.maxPulses := by
    rw [← pulsesUpTo_pairRecords_append c c.maxPulses ps noFall, records, List.append_assoc]
    rcases hlead with rfl | ⟨x, rfl⟩
    · rfl
    · exact pulsesUpTo_fall c c.maxPulses x _
  have resumed : pairResuming c none rs = pairWidths c ps := by
    rw [← pairResuming_pairRecords_append c ps noWidth, records, List.append_assoc]
    rcases hlead with rfl | ⟨x, rfl⟩ <;> rfl
  exact ⟨scanned, by rw [resumed, scanned]⟩

/-- Settles O43: with room for 41 or more, the first 41 widths are those of the scan with room for 41. -/
theorem collectionCapNeverChangesAResult : Obligations.CollectionCapNeverChangesAResult := by
  refine fun c m rs => ⟨length_pulses_le c rs, fun enough enough' => decodeFrame_congr_take rfl ?_⟩
  have first (n : Nat) (h : 41 ≤ n) : (pulsesUpTo c n rs).take 41 = pulsesUpTo c 41 rs :=
    (pulsesUpTo_eq_take c h rs).symm
  have sameScan := pulsesUpTo_congr (c := c) (d := { c with maxPulses := m }) rfl m rs
  exact (congrArg (List.take 41) sameScan).trans ((first m enough').trans (first c.maxPulses enough).symm)

/-- Settles O52: appended records extend the widths and a shift leaves them, and the result reads widths 2 to 41. -/
theorem resultDependsOnTheFirstFortyOneWidths : Obligations.ResultDependsOnTheFirstFortyOneWidths := by
  refine fun c rs xs => ⟨fun enough enough' data => ?widths, fun enough => ?later, fun d => ?shift⟩
  case widths => exact decodeFrame_congr rfl (iff_of_true enough enough') data
  case later =>
    obtain ⟨more, extended⟩ := pulsesUpTo_prefix_append c c.maxPulses rs xs
    refine decodeFrame_congr_take rfl ?_
    change (pulsesUpTo c c.maxPulses (rs ++ xs)).take 41 = _
    rw [← extended]
    exact List.take_append_of_le_length enough
  case shift =>
    exact decodeFrame_congr_take rfl (congrArg (List.take 41) (pulsesUpTo_map_shift c d c.maxPulses rs))

/-- Settles O53: every width needs a later record; 41 rising records can share one falling record; pairs give one width
each. -/
theorem fewestRecordsThatDecode : Obligations.FewestRecordsThatDecode := by
  refine ⟨fun c rs few => ?few, ⟨sharedFall, rfl, by decide⟩, fun c ps decodes => ?pairs⟩
  case few =>
    have := length_pulsesUpTo_le c c.maxPulses rs
    exact decodeFrame_of_length_lt (show (pulsesUpTo c c.maxPulses rs).length < 41 by omega)
  case pairs =>
    by_contra few
    refine decodes ?_
    have short : (pulses c (pairRecords ps)).length < 41 := by
      rw [pulses_pairRecords]
      exact (List.length_take_le' _ _).trans_lt (by simpa [pairWidths] using few)
    exact congrArg Result.code (decodeFrame_of_length_lt short)

end Sys2Proof.Proofs
end

section
/-! PROOF. Frames by their bytes and bits: the checksum finds every change of one byte, and the records of a FRAME decode
to its bytes (41_frame_decoder.md R158, R159, R164; 30_encoding.md R82, R85). -/

namespace Sys2Proof.Machine

/-! ## Bytes and bits of a frame (20_memory.md R54) -/

theorem Frame.bit_eq_getLsbD (f : Frame) (m : Nat) {b : Nat} (hb : b < 8) :
    f.bit (8 * m + b) = (f.byte m).getLsbD (7 - b) := by
  unfold Frame.bit
  rw [show (8 * m + b) / 8 = m by omega, show (8 * m + b) % 8 = b by omega]

/-- A byte is its eight bits in arrival order. -/
theorem Frame.byte_eq_of_bits {f g : Frame} {m : Nat} (same : ∀ b, b < 8 → g.bit (8 * m + b) = f.bit (8 * m + b)) :
    g.byte m = f.byte m := by
  refine BitVec.eq_of_getLsbD_eq fun i hi => ?_
  have bit := same (7 - i) (by omega)
  rwa [Frame.bit_eq_getLsbD _ _ (by omega), Frame.bit_eq_getLsbD _ _ (by omega), show 7 - (7 - i) = i by omega] at bit

/-- A frame is its five bytes. -/
theorem Frame.eq_of_bytes {f g : Frame} (same : ∀ m, m < 5 → g.byte m = f.byte m) : g = f := by
  have h0 := same 0 (by decide)
  have h1 := same 1 (by decide)
  have h2 := same 2 (by decide)
  have h3 := same 3 (by decide)
  have h4 := same 4 (by decide)
  cases f
  cases g
  simp_all [Frame.byte]

theorem Frame.eq_of_bits {f g : Frame} (same : ∀ k, k < 40 → g.bit k = f.bit k) : g = f :=
  Frame.eq_of_bytes fun _ hm => Frame.byte_eq_of_bits fun _ hb => same _ (by omega)

/-! ## The checksum (30_encoding.md R82, 41_frame_decoder.md R159) -/

theorem checksum_toNat (b0 b1 b2 b3 : Byte) :
    (checksum b0 b1 b2 b3).toNat = (b0.toNat + b1.toNat + b2.toNat + b3.toNat) % 256 := BitVec.toNat_ofNat _ _

/-- The checksum is the sum in the bytes' own arithmetic, so it can be cancelled byte by byte. -/
theorem checksum_eq_add (b0 b1 b2 b3 : Byte) : checksum b0 b1 b2 b3 = b0 + b1 + b2 + b3 := by
  simp [checksum, BitVec.ofNat_add]

theorem checksumOk_iff_toNat (f : Frame) :
    checksumOk f = true ↔ (f.b0.toNat + f.b1.toNat + f.b2.toNat + f.b3.toNat) % 256 = f.b4.toNat := by
  rw [checksumOk_iff, ← checksum_toNat, BitVec.toNat_inj]

theorem frameResult_of_checksumOk {f : Frame} (valid : checksumOk f = true) :
    frameResult f = { code := .ok, tRaw := bigEndian f.b2 f.b3, hRaw := bigEndian f.b0 f.b1 } := if_pos valid

theorem frameResult_of_not_checksumOk {f : Frame} (bad : ¬checksumOk f = true) :
    frameResult f = Result.bare .checksumMismatch := if_neg bad

theorem checksumOk_of_ok {f : Frame} (ok : (frameResult f).code = .ok) : checksumOk f = true := by
  by_contra bad
  simp [frameResult_of_not_checksumOk bad, Result.bare] at ok

/-- Two valid frames that agree in all bytes but one agree in that one too: the checksum finds every change of one
byte. -/
theorem byte_eq_of_checksumOk {f g : Frame} (valid : checksumOk f = true) (valid' : checksumOk g = true) {m : Nat}
    (hm : m < 5) (others : ∀ n, n < 5 → n ≠ m → g.byte n = f.byte n) : g.byte m = f.byte m := by
  rw [checksumOk_iff, checksum_eq_add] at valid valid'
  have sums : g.b0 + g.b1 + g.b2 + g.b3 + f.b4 = f.b0 + f.b1 + f.b2 + f.b3 + g.b4 := by
    rw [valid, valid', BitVec.add_comm]
  clear valid valid'
  have h0 := others 0 (by decide)
  have h1 := others 1 (by decide)
  have h2 := others 2 (by decide)
  have h3 := others 3 (by decide)
  have h4 := others 4 (by decide)
  match m with
  | 0 | 1 | 2 | 3 | 4 => simp_all [Frame.byte]

/-- One flipped bit is a change of one byte. -/
theorem not_checksumOk_of_flip {f g : Frame} {k : Nat} (hk : k < 40)
    (flipped : ∀ j, j < 40 → g.bit j = (f.bit j != decide (j = k))) (valid : checksumOk f = true) :
    ¬checksumOk g = true := by
  intro valid'
  have others (n : Nat) (hn : n < 5) (other : n ≠ k / 8) : g.byte n = f.byte n := by
    refine Frame.byte_eq_of_bits fun b hb => ?_
    rw [flipped _ (by omega), decide_eq_false (by omega), Bool.bne_false]
  have same : g.byte (k / 8) = f.byte (k / 8) := byte_eq_of_checksumOk valid valid' (by omega) others
  have kept : g.bit k = f.bit k := congrArg (fun b : Byte => b.getLsbD (7 - k % 8)) same
  rw [flipped k hk] at kept
  simp at kept

/-! ## The stimulus (30_encoding.md R85) -/

theorem length_pulseTrain (c : Config) (t : CounterValue) (ws : List Nat) :
    (pulseTrain c t ws).length = 2 * ws.length := by
  induction ws generalizing t with
  | nil => rfl
  | cons w ws ih =>
    rw [pulseTrain, List.length_append, ih, List.length_cons]
    exact (Nat.add_comm _ _).trans (Nat.mul_succ 2 ws.length).symm

/-- The decoder finds the widths of a pulse train, modulo the counter's period and from any start. -/
theorem pulsesUpTo_pulseTrain (c : Config) (n : Nat) (t : CounterValue) (ws : List Nat) :
    pulsesUpTo c n (pulseTrain c t ws) = (ws.map (· % 2 ^ c.cntBits)).take n := by
  induction ws generalizing n t with
  | nil => exact (pulsesUpTo_nil c n).trans List.take_nil.symm
  | cons w ws ih =>
    cases n with
    | zero => simp
    | succ n =>
      refine (pulsesUpTo_rise_some c n t (nextFalling_fall _ _)).trans ?_
      exact congrArg₂ List.cons (subMod_addMod c.cntBits t w) ((pulsesUpTo_fall c n _ _).trans (ih n _))

theorem length_frameWidths (f : Frame) : (frameWidths f).length = 41 := by
  simp [frameWidths, Config.dataBits]

section
variable {c : Config} (t0 : CounterValue) (f : Frame)

theorem pulses_frameRecords (room : 41 ≤ c.maxPulses) :
    pulses c (frameRecords c t0 f) = (frameWidths f).map (· % 2 ^ c.cntBits) := by
  refine (pulsesUpTo_pulseTrain c c.maxPulses t0 (frameWidths f)).trans (List.take_of_length_le ?_)
  rwa [List.length_map, length_frameWidths]

/-- A threshold between the widths of a 0 and a 1, both below the period, classifies each as its bit. -/
theorem classify_bitWidth (low : 28 ≤ c.bitThreshold) (high : c.bitThreshold < 70) (period : 70 < 2 ^ c.cntBits) (b : Bool) :
    classify c (bitWidth b % 2 ^ c.cntBits) = b := by
  have below : bitWidth b < 2 ^ c.cntBits := by
    cases b <;> simp only [bitWidth, oneWidth, zeroWidth] <;> split <;> omega
  rw [Nat.mod_eq_of_lt below]
  cases b <;> simp [classify, bitWidth, oneWidth, zeroWidth, low, high]

/-- The data bits of a frame's widths are its bits in arrival order; the ack is not read. -/
theorem frameBits_frameWidths (low : 28 ≤ c.bitThreshold) (high : c.bitThreshold < 70) (period : 70 < 2 ^ c.cntBits) :
    frameBits c ((frameWidths f).map (· % 2 ^ c.cntBits)) = (List.range 40).map f.bit := by
  rw [frameBits, dataPulses, frameWidths, List.map_cons, List.drop_one, List.tail_cons, List.map_map,
    List.take_of_length_le (by simp), List.map_map]
  exact List.map_congr_left fun k _ => classify_bitWidth low high period (f.bit k)

/-- Assembling a frame's bits in arrival order gives the frame. -/
theorem assembleFrame_bits : assembleFrame ((List.range 40).map f.bit) = f := by
  refine Frame.eq_of_bits fun k hk => ?_
  rw [assembleFrame_bit _ hk]
  simp [hk]

theorem decodeFrame_frameRecords (wf : c.wf = true) (low : 28 ≤ c.bitThreshold) (high : c.bitThreshold < 70)
    (period : 70 < 2 ^ c.cntBits) : decodeFrame c (frameRecords c t0 f) = frameResult f := by
  have widths := pulses_frameRecords t0 f ((Config.wf_iff c).1 wf).2.1
  have enough : 41 ≤ (pulses c (frameRecords c t0 f)).length := by
    rw [widths, List.length_map, length_frameWidths]
  rw [decodeFrame_of_le_length enough, widths, frameBits_frameWidths f low high period, assembleFrame_bits]

theorem length_frameRecords (c : Config) : (frameRecords c t0 f).length = 82 := by
  rw [frameRecords, length_pulseTrain, length_frameWidths]

end

theorem bigEndian_eq_append (hi lo : Byte) : bigEndian hi lo = hi ++ lo := by
  refine BitVec.eq_of_toNat_eq ?_
  rw [bigEndian_toNat, BitVec.toNat_append, ← Nat.shiftLeft_add_eq_or_of_lt lo.isLt, Nat.shiftLeft_eq]

end Sys2Proof.Machine

namespace Sys2Proof.Proofs

open Sys2Proof.Machine

/-- Settles O47: the sum decides the result, one flipped bit changes one byte, and a frame with +1 in B0 and -1 in B1 has
the same sum. -/
theorem checksumFindsEverySingleFlip : Obligations.ChecksumFindsEverySingleFlip := by
  refine ⟨fun f => ⟨fun sum => ?valid, fun sum => ?mismatch⟩, fun f g k hk flipped ok => ?flip,
    checkedFrame 1#8 2#8 0#8 0#8, checkedFrame 2#8 1#8 0#8 0#8, by decide⟩
  case valid => rw [frameResult_of_checksumOk ((checksumOk_iff_toNat f).2 sum)]
  case mismatch =>
    rw [frameResult_of_not_checksumOk fun ok => sum ((checksumOk_iff_toNat f).1 ok)]
    rfl
  case flip =>
    rw [frameResult_of_not_checksumOk (not_checksumOk_of_flip hk flipped (checksumOk_of_ok ok))]
    rfl

/-- Settles O54: the 41 widths come back, the 40 data widths are the frame's bits, and these assemble to its bytes. -/
theorem frameDecodesToItsOwnBytes : Obligations.FrameDecodesToItsOwnBytes := by
  intro c t0 wf low high period
  refine ⟨fun f => ⟨length_frameRecords t0 f c, decodeFrame_frameRecords t0 f wf low high period⟩, fun b0 b1 b2 b3 => ?_⟩
  rw [decodeFrame_frameRecords t0 _ wf low high period,
    frameResult_of_checksumOk (checksumOk_checkedFrame b0 b1 b2 b3), bigEndian_eq_append, bigEndian_eq_append]
  rfl

end Sys2Proof.Proofs
end

section
/-! PROOF. Runs one operation at a time: the races between the ports, sessions that end without a frame, and the intervals
the block measures (60_exceptions.md R206, R207, R213, R215; 70_reset_and_hazards.md R234, R235, R240). -/

namespace Sys2Proof.Machine

open Sys2Proof.Claims

/-! ## A run, operation by operation -/

/-- A run takes its first operation and goes on with the others. -/
theorem run_cons {s t : State} {r : Request} {rest : List Request} {i : Instr} (wf : s.cfg.wf = true)
    (running : s.fault = none) (issued : Issues r i) (executed : exec i (accept r rest s) = .next t) :
    run (r :: rest) s = run rest t := by
  have stepped : Sys2Proof.core.step { s with arrivals := r :: rest } = .next t :=
    (step_of_decode (s := { s with arrivals := r :: rest }) wf running rfl issued).trans executed
  have arrivals : { t with arrivals := rest } = t := by
    rw [← show t.arrivals = rest from (exec_keeps executed).1]
  unfold run
  rw [arrivals]
  simp only [List.length_cons, Host.Core.run, stepped]
  rfl

theorem run_nil (s : State) : run [] s = .next { s with arrivals := [] } := rfl

/-- A run of two operations. -/
theorem run_pair {s t u : State} {x y : Request} {i j : Instr} (wf : s.cfg.wf = true) (running : s.fault = none)
    (first : Issues x i) (executed : exec i (accept x [y] s) = .next t) (unfaulted : t.fault = none)
    (second : Issues y j) (executed' : exec j (accept y [] t) = .next u) : run [x, y] s = .next u := by
  have cfg : t.cfg = s.cfg := (exec_keeps executed).2.2
  rw [run_cons wf running first executed, run_cons (cfg ▸ wf) unfaulted second executed', run_nil]
  rw [← show u.arrivals = [] from (exec_keeps executed').1]

/-! ## Measured intervals (60_exceptions.md R213, 70_reset_and_hazards.md R235) -/

/-- The difference of two samples of a counter is the true interval modulo its period. -/
theorem subMod_of_samples (n : Nat) {a b : Nat} (ordered : a ≤ b) :
    subMod n (b % 2 ^ n) (a % 2 ^ n) = (b - a) % 2 ^ n := by
  rw [subMod_mod, ← subMod_add_left n a (b - a), Nat.add_sub_cancel' ordered]

theorem operationsThat_cons {has : Instr → Bool} {r : Request} {i : Instr} (issued : Issues r i) (selected : has i = true)
    (l : List Request) : operationsThat has (r :: l) = r :: operationsThat has l := by
  unfold operationsThat
  rw [List.filter_cons_of_pos]
  rw [show decode r.port r.word = .ok i from issued]
  exact selected

/-- Of an EDGE and a later operation that brings a counter value, the second was sampled no earlier, and both values are
the true ones modulo the period. -/
theorem CountsSinceReset.samples {c : Config} {x y : Request} {a b : Nat} {l : Bool} {j : Instr}
    (edge : Issues x (.edge l)) (second : Issues y j) (brings : samplesCounter j = true)
    (contract : CountsSinceReset c [a, b] [x, y]) :
    a ≤ b ∧ x.inputs.ts = a % 2 ^ c.cntBits ∧ counterSample y = b % 2 ^ c.cntBits := by
  obtain ⟨ordered, values⟩ := contract
  rw [operationsThat_cons edge rfl, operationsThat_cons second brings] at ordered values
  have capture : x.port = .capture := (fields_of_decode edge).1
  have order : a ≤ b := by simpa [SampledInOrder, capture, operationsThat] using ordered
  have values : counterSample x = a % 2 ^ c.cntBits ∧ counterSample y = b % 2 ^ c.cntBits := by
    simpa [operationsThat] using values
  refine ⟨order, ?_, values.2⟩
  rw [← values.1]
  simp [counterSample, capture]

theorem counterSample_of_edge {r : Request} {l : Bool} (issued : Issues r (.edge l)) : counterSample r = r.inputs.ts := by
  simp [counterSample, (fields_of_decode issued).1, Instr.port]

theorem counterSample_of_service {r : Request} (issued : Issues r .service) : counterSample r = r.inputs.nowCnt := by
  simp [counterSample, (fields_of_decode issued).1, Instr.port]

theorem MonotonicTick.samples {c : Config} {x y : Request} {a b : Nat} (start : Issues x .start)
    (service : Issues y .service) (contract : MonotonicTick c [a, b] [x, y]) :
    a ≤ b ∧ x.inputs.nowMs = a % 2 ^ c.tickBits ∧ y.inputs.nowMs = b % 2 ^ c.tickBits := by
  obtain ⟨ordered, values⟩ := contract
  rw [operationsThat_cons start rfl, operationsThat_cons service rfl] at values
  exact ⟨by simpa using ordered, by simpa [operationsThat] using values⟩

end Sys2Proof.Machine

namespace Sys2Proof.Proofs

open Sys2Proof.Machine Sys2Proof.Claims

/-- Settles O40: the contract makes the samples true values modulo the period, and `subMod_of_samples` subtracts them. -/
theorem measuredIntervalsUnderTheContract : Obligations.MeasuredIntervalsUnderTheContract := by
  intro c x y a b
  have interval {n m : Nat} (measured : m = (b - a) % 2 ^ n) : m = (b - a) % 2 ^ n ∧ (b - a < 2 ^ n → m = b - a) :=
    ⟨measured, fun below => measured.trans (Nat.mod_eq_of_lt below)⟩
  refine ⟨fun l m edge edge' contract => ?width, fun l edge service contract => ?gap,
    fun start service contract => ?elapsed⟩
  case width =>
    obtain ⟨ordered, rise, fall⟩ := CountsSinceReset.samples edge edge' rfl contract
    rw [counterSample_of_edge edge'] at fall
    rw [rise, fall]
    exact ⟨ordered, interval (subMod_of_samples _ ordered)⟩
  case gap =>
    obtain ⟨ordered, last, now⟩ := CountsSinceReset.samples edge service rfl contract
    rw [counterSample_of_service service] at now
    rw [last, now]
    exact ⟨ordered, interval (subMod_of_samples _ ordered)⟩
  case elapsed =>
    obtain ⟨ordered, first, second⟩ := MonotonicTick.samples start service contract
    rw [first, second]
    exact ⟨ordered, interval (subMod_of_samples _ ordered)⟩

/-- Settles O35: the EDGE that fills leaves Ready, where SERVICE does nothing; the SERVICE that times out disarms, and
then EDGE is dropped. -/
theorem fillAgainstTimeoutRace : Obligations.FillAgainstTimeoutRace := by
  intro s e v level inv wf running capturing last edge service late
  have armed := inv.armed_of_capturing capturing
  have grows := count_succ ((Config.wf_iff s.cfg).1 wf).1.2 last.le
  refine ⟨⟨_, run_pair wf running edge (exec_edge_of_last_slot armed last) running service
    (exec_service_of_not_capturing (by simp)), rfl, grows, ?_, rfl⟩, ?_⟩
  · exact (bufRead_appended (edgeRecord level (accept e [v] s)) grows s.count.toNat).trans (if_pos rfl)
  · exact ⟨_, run_pair wf running service (exec_service_of_timedOut capturing late) running edge
      (exec_edge_of_disarmed rfl), rfl, rfl, rfl, rfl⟩

/-- Settles O59: as O35, with the SERVICE that sees silence ending in Ready. -/
theorem fillAgainstSilenceRace : Obligations.FillAgainstSilenceRace := by
  intro s e v level inv wf running capturing held last edge service inTime silent
  have armed := inv.armed_of_capturing capturing
  have grows := count_succ ((Config.wf_iff s.cfg).1 wf).1.2 last.le
  refine ⟨⟨_, run_pair wf running edge (exec_edge_of_last_slot armed last) running service
    (exec_service_of_not_capturing (by simp)), rfl, grows, ?_, rfl⟩, ?_⟩
  · exact (bufRead_appended (edgeRecord level (accept e [v] s)) grows s.count.toNat).trans (if_pos rfl)
  · exact ⟨_, run_pair wf running service
      (exec_service_of_silent capturing inTime ((count_pos_iff s.count).1 held) silent) running edge
      (exec_edge_of_disarmed rfl), rfl, rfl, rfl, rfl, rfl⟩

/-- Settles O36: SERVICE first closes the session and EDGE is dropped; EDGE first is recorded, and SERVICE then compares
with the new edge. -/
theorem edgeAgainstSilenceRace : Obligations.EdgeAgainstSilenceRace := by
  intro s e v level inv wf running capturing held room edge service inTime silent
  have armed := inv.armed_of_capturing capturing
  have grows := count_succ ((Config.wf_iff s.cfg).1 wf).1.2 (Nat.lt_of_succ_lt room)
  have one : 1 ≤ (s.count + 1#8).toNat := grows.ge.trans' (Nat.le_add_left 1 _)
  refine ⟨⟨_, run_pair wf running service
    (exec_service_of_silent capturing inTime ((count_pos_iff s.count).1 held) silent) running edge
    (exec_edge_of_disarmed rfl), rfl, rfl, rfl⟩, ?edgeFirst⟩
  case edgeFirst =>
    have recorded := exec_edge_of_room (level := level) (s := accept e [v] s) armed room
    by_cases quiet : Silent s.cfg (v.inputs.nowCnt % 2 ^ s.cfg.cntBits) (e.inputs.ts % 2 ^ s.cfg.cntBits)
    · exact ⟨_, run_pair wf running edge recorded running service (exec_service_of_silent capturing inTime one quiet),
        grows, rfl, by simp [quiet], by simp [quiet]⟩
    · exact ⟨_, run_pair wf running edge recorded running service
          (exec_service_of_waiting inTime fun ⟨_, quiet'⟩ => quiet quiet'),
        grows, rfl, by simp [quiet, capturing], by simp [quiet, capturing]⟩

/-- Settles O56: the timeout leaves Idle, where READ gives TIMED_OUT. -/
theorem lateServiceLosesTheFrame : Obligations.LateServiceLosesTheFrame := by
  intro s v d wf running capturing service read late
  exact ⟨_, run_pair wf running service (exec_service_of_timedOut capturing late) running read (exec_read_of_idle rfl),
    rfl, rfl, rfl, rfl⟩

/-- Settles O57: silence leaves Ready, and READ decodes fewer than 42 records (O53). -/
theorem strayEdgeGivesFramingError : Obligations.StrayEdgeGivesFramingError := by
  intro s v d inv wf running capturing held few service read inTime silent
  obtain ⟨rs, hrs⟩ := inv.bufReadAll_ok
  have short : rs.length < 42 := ((bufReadAll_eq_ok_iff _ _ _).1 hrs).1.trans_lt few
  have framing : (decodeFrame s.cfg rs).word = framingWord := by
    rw [fewestRecordsThatDecode.1 s.cfg rs short]
    rfl
  have kept : bufReadAll s.count.toNat (accept d [] (closeSession .ready (accept v [d] s))) = .ok rs := by
    rw [← hrs]
    exact bufReadAll_congr (by rfl) (by rfl) _
  refine ⟨_, run_pair wf running service
    (exec_service_of_silent capturing inTime ((count_pos_iff s.count).1 held) silent) running read
    (exec_read_of_ready rfl kept), rfl, ?_⟩
  exact congrArg (fun w => s.results ++ [w]) framing

end Sys2Proof.Proofs
end

section
/-! PROOF. Runs of any length: every interleaving without SERVICE records the edges, polling ends the session, a whole
transaction reports its frame, and what reset leaves unspecified is never read (20_memory.md R56; 60_exceptions.md R210,
R215; 70_reset_and_hazards.md R231, R234; 10_state.md R39). -/

namespace Sys2Proof.Machine

open Sys2Proof.Claims

/-! ## What a list of operations without SERVICE does in Capturing (20_memory.md R56) -/

/-- The record of an EDGE request. -/
def recordOf (c : Config) (r : Request) : EdgeRecord := { ts := r.inputs.ts % 2 ^ c.cntBits, lvl := r.word.getLsbD 3 }

/-- The records a list of operations delivers, in order. -/
def deliveredRecords (c : Config) (l : List Request) : List EdgeRecord := (portArrivals .capture l).map (recordOf c)

/-- The number of READs of a list of operations. -/
def readCount (l : List Request) : Nat := l.countP fun r => decide (r.word = 0x03#8)

/-- From `s` to `t` the operations `l` have recorded their edges after the old records, answered BUSY to every READ, and
changed nothing else of the session. -/
structure Recorded (s : State) (l : List Request) (t : State) : Prop where
  inv : Inv t
  cfg : t.cfg = s.cfg
  fault : t.fault = s.fault
  state : t.state = s.state
  startMs : t.startMs = s.startMs
  events : t.events = s.events
  results : t.results = s.results ++ List.replicate (readCount l) busyWord
  records : ∀ rs, bufReadAll s.count.toNat s = .ok rs →
    bufReadAll t.count.toNat t = .ok (rs ++ deliveredRecords s.cfg l)

theorem Recorded.refl {s : State} (h : Inv s) : Recorded s [] s :=
  ⟨h, rfl, rfl, rfl, rfl, rfl, (List.append_nil _).symm, fun _ hrs => hrs.trans (by simp [deliveredRecords, portArrivals])⟩

theorem Recorded.trans {s t u : State} {l m : List Request} (first : Recorded s l t) (second : Recorded t m u) :
    Recorded s (l ++ m) u where
  inv := second.inv
  cfg := second.cfg.trans first.cfg
  fault := second.fault.trans first.fault
  state := second.state.trans first.state
  startMs := second.startMs.trans first.startMs
  events := second.events.trans first.events
  results := by
    rw [second.results, first.results, List.append_assoc, ← List.replicate_add, readCount, readCount, readCount,
      List.countP_append]
  records rs hrs := by
    rw [second.records _ (first.records rs hrs), first.cfg, List.append_assoc, deliveredRecords, deliveredRecords,
      deliveredRecords, ← List.map_append, portArrivals, portArrivals, portArrivals, ← List.filter_append]

theorem Recorded.count {s t : State} {l : List Request} (h : Recorded s l t) (inv : Inv s) :
    t.count.toNat = s.count.toNat + (portArrivals .capture l).length := by
  obtain ⟨rs, hrs⟩ := inv.bufReadAll_ok
  have before := ((bufReadAll_eq_ok_iff _ _ _).1 hrs).1
  have after := ((bufReadAll_eq_ok_iff _ _ _).1 (h.records rs hrs)).1
  rw [← before, ← after, List.length_append, deliveredRecords, List.length_map]

/-- The record an accepted EDGE appends is the request's. -/
theorem edgeRecord_accept {s : State} {r : Request} {level : Bool} (issued : Issues r (.edge level)) (rest : List Request) :
    edgeRecord level (accept r rest s) = recordOf s.cfg r := by
  obtain ⟨-, -, lvl, -⟩ := fields_of_decode issued
  simp only [edgeRecord, recordOf]
  rw [show r.word.getLsbD 3 = level from lvl]
  rfl

/-- An append adds its record to those read. -/
theorem bufReadAll_appended {s : State} {r : EdgeRecord} {rs : List EdgeRecord}
    (grows : (s.count + 1#8).toNat = s.count.toNat + 1) (hrs : bufReadAll s.count.toNat s = .ok rs) :
    bufReadAll (appended r s).count.toNat (appended r s) = .ok (rs ++ [r]) := by
  obtain ⟨length, entries⟩ := (bufReadAll_eq_ok_iff _ _ _).1 hrs
  rw [appended_count, grows, bufReadAll_eq_ok_iff]
  refine ⟨by simp [length], fun i hi => ?_⟩
  rw [bufRead_appended r grows]
  by_cases last : i = s.count.toNat
  · rw [if_pos last, List.getElem_append_right (by omega)]
    simp
  · have old : i < rs.length := by simp at hi; omega
    rw [if_neg last, List.getElem_append_left old]
    exact entries i old

section
variable {s : State} {r : Request} {rest : List Request}

theorem portArrivals_capture_of_edge {level : Bool} (issued : Issues r (.edge level)) : portArrivals .capture [r] = [r] := by
  simp [portArrivals, (fields_of_decode issued).1, Instr.port]

theorem portArrivals_capture_of_foreground {i : Instr} (issued : Issues r i) (foreground : i.port = .foreground) :
    portArrivals .capture [r] = [] := by
  simp [portArrivals, (fields_of_decode issued).1, foreground]

/-- READ is the instruction of its word. -/
theorem readCount_singleton {i : Instr} (issued : Issues r i) : readCount [r] = if i = .read then 1 else 0 := by
  have word : r.word = encode i := ((decode_eq_ok_iff _ _ _).1 issued).2
  unfold readCount
  rw [List.countP_singleton, word]
  cases i with
  | edge level => cases level <;> rfl
  | _ => rfl

/-- An operation of the foreground that leaves the session as it is. -/
theorem recorded_of_foreground {i : Instr} {ws : List ResultWord} (inv : Inv s) (issued : Issues r i)
    (foreground : i.port = .foreground) (words : ws = List.replicate (readCount [r]) busyWord) :
    Recorded s [r] { accept r rest s with results := s.results ++ ws } where
  inv := inv.of_unseen rfl
  cfg := rfl
  fault := rfl
  state := rfl
  startMs := rfl
  events := rfl
  results := by rw [words]
  records rs hrs := by
    rw [deliveredRecords, portArrivals_capture_of_foreground issued foreground, List.map_nil, List.append_nil, ← hrs]
    exact bufReadAll_congr (by rfl) (by rfl) _

theorem recorded_of_edge {level : Bool} (inv : Inv s) (fits : s.cfg.capacity ≤ 255) (issued : Issues r (.edge level))
    (room : s.count.toNat + 1 < s.cfg.capacity) : Recorded s [r] (appended (recordOf s.cfg r) (accept r rest s)) where
  inv := (inv.accept r rest).appended fits room (Nat.mod_lt _ (Nat.two_pow_pos _))
  cfg := rfl
  fault := rfl
  state := rfl
  startMs := rfl
  events := rfl
  results := by simp [readCount_singleton issued]
  records rs hrs := by
    rw [deliveredRecords, portArrivals_capture_of_edge issued, List.map_singleton]
    refine bufReadAll_appended (count_succ fits (Nat.lt_of_succ_lt room)) ?_
    rw [← hrs]
    exact bufReadAll_congr (by rfl) (by rfl) _

/-- One operation other than SERVICE, in Capturing with room for its edge. -/
theorem exec_recorded {i : Instr} (inv : Inv s) (wf : s.cfg.wf = true) (capturing : s.state = .capturing)
    (issued : Issues r i) (notService : i ≠ .service)
    (room : s.count.toNat + (portArrivals .capture [r]).length < s.cfg.capacity) :
    ∃ t, exec i (accept r rest s) = .next t ∧ Recorded s [r] t := by
  have initDone := inv.initDone_of_capturing capturing
  have unchanged (foreground : i.port = .foreground) (notRead : i ≠ .read) : Recorded s [r] (accept r rest s) := by
    have kept := recorded_of_foreground (rest := rest) (ws := []) inv issued foreground
      (by rw [readCount_singleton issued, if_neg notRead]; rfl)
    rwa [List.append_nil] at kept
  cases i with
  | init => exact ⟨_, exec_init_of_initDone initDone, unchanged rfl (by simp)⟩
  | start => exact ⟨_, exec_start_of_not_idle initDone (by simp [capturing]), unchanged rfl (by simp)⟩
  | service => exact absurd rfl notService
  | read =>
    exact ⟨_, exec_read_of_capturing capturing, recorded_of_foreground inv issued rfl
      (by rw [readCount_singleton issued, if_pos rfl]; rfl)⟩
  | edge level =>
    rw [portArrivals_capture_of_edge issued] at room
    refine ⟨_, exec_edge_of_room (inv.armed_of_capturing capturing) room, ?_⟩
    rw [edgeRecord_accept issued]
    exact recorded_of_edge inv ((Config.wf_iff s.cfg).1 wf).1.2 issued room

end

theorem portArrivals_cons (p : Port) (r : Request) (l : List Request) :
    portArrivals p (r :: l) = portArrivals p [r] ++ portArrivals p l := by
  rw [← List.singleton_append, portArrivals, List.filter_append]
  rfl

/-- The record of a delivered edge is the edge. -/
theorem recordOf_edgeRequest {c : Config} {r : EdgeRecord} (width : r.ts < 2 ^ c.cntBits) :
    recordOf c (edgeRequest r) = r := by
  have level : (encode (.edge r.lvl)).getLsbD 3 = r.lvl := levelField_commandWord _ _ _
  change EdgeRecord.mk (r.ts % 2 ^ c.cntBits) ((encode (.edge r.lvl)).getLsbD 3) = r
  rw [Nat.mod_eq_of_lt width, level]

theorem map_recordOf_edgeRequest {c : Config} {rs : List EdgeRecord} (width : ∀ r ∈ rs, r.ts < 2 ^ c.cntBits) :
    (rs.map edgeRequest).map (recordOf c) = rs := by
  rw [List.map_map]
  exact (List.map_congr_left fun r hr => recordOf_edgeRequest (width r hr)).trans (List.map_id rs)

theorem issues_unique {r : Request} {i j : Instr} (first : Issues r i) (second : Issues r j) : i = j :=
  Except.ok.inj (first.symm.trans second)

/-- A legal request issues an instruction. -/
theorem exists_issues {r : Request} (legal : legalRequest r = true) : ∃ i, Issues r i := by
  unfold legalRequest at legal
  split at legal
  · next i decoded => exact ⟨i, decoded⟩
  · cases legal

/-- Any list of operations without SERVICE whose edges leave room records exactly them, whatever arrives after it. -/
theorem run_recorded {s : State} (l rest : List Request) (inv : Inv s) (wf : s.cfg.wf = true) (running : s.fault = none)
    (capturing : s.state = .capturing) (legal : LegalArrivals l) (noService : ∀ r ∈ l, ¬Issues r .service)
    (room : s.count.toNat + (portArrivals .capture l).length < s.cfg.capacity) :
    ∃ t, run (l ++ rest) s = run rest t ∧ Recorded s l t := by
  induction l generalizing s with
  | nil => exact ⟨s, rfl, .refl inv⟩
  | cons r l ih =>
    obtain ⟨i, issued⟩ := exists_issues (legal r List.mem_cons_self)
    have notService : i ≠ .service := fun is => noService r List.mem_cons_self (is ▸ issued)
    rw [portArrivals_cons, List.length_append] at room
    obtain ⟨u, executed, first⟩ :=
      exec_recorded (rest := l ++ rest) inv wf capturing issued notService (by omega)
    have count := first.count inv
    obtain ⟨t, ran, others⟩ := ih first.inv (first.cfg ▸ wf) (first.fault.trans running) (first.state.trans capturing)
      (fun x hx => legal x (List.mem_cons_of_mem r hx)) (fun x hx => noService x (List.mem_cons_of_mem r hx))
      (by rw [first.cfg]; omega)
    exact ⟨t, (run_cons wf running issued executed).trans ran, first.trans others⟩

end Sys2Proof.Machine

namespace Sys2Proof.Proofs

open Sys2Proof.Machine Sys2Proof.Claims

/-- Settles O37: `run_recorded`, with the records read one by one. -/
theorem anyInterleavingRecordsTheEdges : Obligations.AnyInterleavingRecordsTheEdges := by
  intro s l cap inv wf running capturing legal noService hcap room
  subst hcap
  obtain ⟨t, ran, recorded⟩ := run_recorded l [] inv wf running capturing legal noService room
  rw [List.append_nil, run_nil] at ran
  obtain ⟨rs, hrs⟩ := inv.bufReadAll_ok
  obtain ⟨length, old⟩ := (bufReadAll_eq_ok_iff _ _ _).1 hrs
  obtain ⟨length', entries⟩ := (bufReadAll_eq_ok_iff _ _ _).1 (recorded.records rs hrs)
  refine ⟨_, ran, recorded.state.trans capturing, recorded.startMs, recorded.count inv, fun j hj => ?old, fun j hj => ?new,
    recorded.results, recorded.events⟩
  case old =>
    have inOld : j < rs.length := hj.trans_eq length.symm
    have here := entries j (by rw [List.length_append]; omega)
    rw [List.getElem_append_left inOld] at here
    exact here.trans (old j inOld).symm
  case new =>
    have here := entries (s.count.toNat + j) (by simp [deliveredRecords, length, hj])
    rw [List.getElem_append_right (by omega)] at here
    refine Eq.trans (b := bufRead (s.count.toNat + j) t) rfl ?_
    simpa [deliveredRecords, length, recordOf] using here

/-- Settles O38: the records are those of the delivered edges, which come from the line in order. -/
theorem bufferIsASubsequenceOfTheLine : Obligations.BufferIsASubsequenceOfTheLine := by
  intro s l line inv wf running capturing empty legal noService delivers width room
  obtain ⟨delivered, sublist, captured⟩ := delivers
  have none_held : s.count.toNat = 0 := by rw [empty]; rfl
  obtain ⟨t, ran, recorded⟩ := run_recorded l [] inv wf running capturing legal noService (by omega)
  rw [List.append_nil, run_nil] at ran
  have records := recorded.records [] (by rw [none_held]; rfl)
  rw [deliveredRecords, captured, map_recordOf_edgeRequest fun r hr => width r (sublist.subset hr),
    List.nil_append] at records
  refine ⟨_, delivered, ran, ?_, sublist⟩
  rw [← records]
  exact bufReadAll_congr (by rfl) (by rfl) _

end Sys2Proof.Proofs
end

section
/-! PROOF. Polling ends the session, and a whole transaction reports its frame (60_exceptions.md R215; 40_capture_session.md
R108; 70_reset_and_hazards.md R231, R234). -/

namespace Sys2Proof.Machine

open Sys2Proof.Claims

/-! ## Polling (60_exceptions.md R215) -/

/-- No instruction but START writes `start_ms` or records a fault. -/
theorem exec_keeps_of_ne_start {i : Instr} {s t : State} (executed : exec i s = .next t) (notStart : i ≠ .start) :
    t.startMs = s.startMs ∧ t.fault = s.fault := by
  obtain ⟨-, -, -, -, -, -, startMs, -, -, -, fault, -⟩ := Proofs.writersOfEachField i s t executed
  exact ⟨not_not.1 fun changed => notStart (startMs changed), not_not.1 fun changed => notStart (fault changed)⟩

/-- A SERVICE with the timeout due leaves Capturing. -/
theorem service_leaves_capturing {s t : State} (late : s.state = .capturing → TimedOut s.cfg (nowMs s) s.startMs)
    (executed : exec .service s = .next t) : t.state ≠ .capturing := by
  by_cases capturing : s.state = .capturing
  · rw [exec_service_of_timedOut capturing (late capturing)] at executed
    cases executed
    simp
  · rw [exec_service_of_not_capturing capturing] at executed
    cases executed
    exact capturing

/-- The timeout is due at every SERVICE of `l`. -/
def LateServices (s : State) (l : List Request) : Prop :=
  ∀ r ∈ l, Issues r .service → TimedOut s.cfg (r.inputs.nowMs % 2 ^ s.cfg.tickBits) s.startMs

/-- A run without START that still has a SERVICE to come, with the timeout due, while it is in Capturing, ends outside
Capturing. -/
theorem run_leaves_capturing {s : State} (l : List Request) (inv : Inv s) (wf : s.cfg.wf = true) (running : s.fault = none)
    (legal : LegalArrivals l) (noStart : ∀ r ∈ l, ¬Issues r .start) (late : LateServices s l)
    (polled : s.state = .capturing → ∃ r ∈ l, Issues r .service) :
    ∃ t, run l s = .next t ∧ Inv t ∧ t.fault = none ∧ t.state ≠ .capturing := by
  induction l generalizing s with
  | nil =>
    refine ⟨_, run_nil s, inv.of_unseen rfl, running, fun capturing => ?_⟩
    obtain ⟨r, hr, -⟩ := polled capturing
    cases hr
  | cons r l ih =>
    obtain ⟨i, issued⟩ := exists_issues (legal r List.mem_cons_self)
    have notStart : i ≠ .start := fun is => noStart r List.mem_cons_self (is ▸ issued)
    obtain ⟨u, executed⟩ := (inv.accept r l).exec_completes (i := i)
    obtain ⟨startMs, fault⟩ := exec_keeps_of_ne_start executed notStart
    obtain ⟨-, -, cfg⟩ := exec_keeps executed
    have cfg : u.cfg = s.cfg := cfg
    have startMs : u.startMs = s.startMs := startMs
    have still (capturing : u.state = .capturing) : ∃ x ∈ l, Issues x .service := by
      have before : s.state = .capturing := by
        by_contra outside
        exact notStart (exec_enters_capturing executed outside capturing).1
      obtain ⟨x, hx, service⟩ := polled before
      rcases List.mem_cons.1 hx with rfl | hx
      · obtain rfl : i = .service := issues_unique issued service
        have due : TimedOut s.cfg (nowMs (accept x l s)) s.startMs := late x List.mem_cons_self service
        exact absurd capturing (service_leaves_capturing (s := accept x l s) (fun _ => due) executed)
      · exact ⟨x, hx, service⟩
    rw [run_cons wf running issued executed]
    refine ih (exec_keeps_inv (inv.accept r l) wf executed) (cfg ▸ wf) (fault.trans running)
      (fun x hx => legal x (List.mem_cons_of_mem r hx)) (fun x hx => noStart x (List.mem_cons_of_mem r hx)) ?_ still
    intro x hx service
    rw [cfg, startMs]
    exact late x (List.mem_cons_of_mem r hx) service

/-- The polling duty in Capturing holds a SERVICE among the arrivals. -/
theorem KeepsPolling.exists_service {n k : Nat} {s : State} (duty : KeepsPolling n (k + 1) s)
    (capturing : s.state = .capturing) : ∃ r ∈ s.arrivals, Issues r .service := by
  obtain ⟨r, hr, service⟩ := duty.1 capturing
  exact ⟨r, List.mem_of_mem_filter (List.mem_of_mem_take hr), service⟩

/-! ## A whole transaction (70_reset_and_hazards.md R231, R234) -/

theorem issues_make (i : Instr) (ms cnt ts : Nat) : Issues (Request.make i ms cnt ts) i := decode_encode i

theorem issues_edgeRequest (r : EdgeRecord) : Issues (edgeRequest r) (.edge r.lvl) := decode_encode _

/-- The EDGE operations of a record list: each legal, on the capture port, and neither a SERVICE nor a READ. -/
theorem edgeRequests_facts (rs : List EdgeRecord) :
    LegalArrivals (rs.map edgeRequest) ∧ (∀ r ∈ rs.map edgeRequest, ¬Issues r .service) ∧
      portArrivals .capture (rs.map edgeRequest) = rs.map edgeRequest ∧ readCount (rs.map edgeRequest) = 0 := by
  refine ⟨List.forall_mem_map.2 fun r _ => ?_, List.forall_mem_map.2 fun r _ service => ?_,
    List.filter_eq_self.2 (List.forall_mem_map.2 fun r _ => rfl), List.countP_eq_zero.2 (List.forall_mem_map.2 fun r _ => ?_)⟩
  · unfold legalRequest
    rw [show decode (edgeRequest r).port (edgeRequest r).word = .ok (.edge r.lvl) from issues_edgeRequest r]
  · cases issues_unique (issues_edgeRequest r) service
  · cases level : r.lvl <;> simp [edgeRequest, Request.make, level] <;> decide

/-- Every timestamp of a pulse train is a counter value. -/
theorem pulseTrain_ts_lt (c : Config) {t : CounterValue} (ht : t < 2 ^ c.cntBits) (ws : List Nat) :
    ∀ r ∈ pulseTrain c t ws, r.ts < 2 ^ c.cntBits := by
  induction ws generalizing t with
  | nil => simp [pulseTrain]
  | cons w ws ih =>
    intro r hr
    rcases List.mem_append.1 hr with pulse | later
    · rcases List.mem_pair.1 pulse with rfl | rfl
      · exact ht
      · exact addMod_lt _ _ _
    · exact ih (addMod_lt _ _ _) r later

/-- The last edge of a frame and the SERVICE that sees the silence after it close the session in Ready with that edge
recorded, whether the edge fills the buffer or not. -/
theorem run_edge_then_service {s : State} {e v : Request} {level : Bool} (rest : List Request) (inv : Inv s)
    (wf : s.cfg.wf = true) (running : s.fault = none) (capturing : s.state = .capturing) (edge : Issues e (.edge level))
    (service : Issues v .service) (inTime : ¬TimedOut s.cfg (v.inputs.nowMs % 2 ^ s.cfg.tickBits) s.startMs)
    (silent : Silent s.cfg (v.inputs.nowCnt % 2 ^ s.cfg.cntBits) (recordOf s.cfg e).ts) :
    run (e :: v :: rest) s = run rest (accept v rest (closeSession .ready (appended (recordOf s.cfg e) s))) := by
  have armed := inv.armed_of_capturing capturing
  have room := inv.capturing_room capturing
  have record := edgeRecord_accept (s := s) edge (v :: rest)
  by_cases last : s.count.toNat + 1 = s.cfg.capacity
  case pos =>
    rw [run_cons wf running edge (exec_edge_of_last_slot armed last), record]
    exact run_cons wf running service (exec_service_of_not_capturing (by simp))
  case neg =>
    have grows := count_succ ((Config.wf_iff s.cfg).1 wf).1.2 room
    have held : 1 ≤ (s.count + 1#8).toNat := grows.ge.trans' (Nat.le_add_left 1 _)
    rw [run_cons wf running edge (exec_edge_of_room armed (Nat.lt_of_le_of_ne room last)), record]
    exact run_cons wf running service (exec_service_of_silent capturing inTime held silent)

/-- From `s` to `t` a session has recorded exactly `rs` and ended in Ready. -/
structure SessionReady (s : State) (rs : List EdgeRecord) (t : State) : Prop where
  state : t.state = .ready
  armed : t.armed = false
  cfg : t.cfg = s.cfg
  fault : t.fault = none
  results : t.results = s.results
  events : t.events = s.events ++ [.captureDisarm]
  records : bufReadAll t.count.toNat t = .ok rs

/-- A new session that gets the edges of `before` and `last`, with room for them, and then a SERVICE that sees the silence
in time. -/
theorem run_edges_then_service {s : State} {before : List EdgeRecord} {last : EdgeRecord} {v : Request}
    (rest : List Request) (inv : Inv s) (wf : s.cfg.wf = true) (running : s.fault = none) (capturing : s.state = .capturing)
    (empty : s.count = 0#8) (room : before.length < s.cfg.capacity)
    (width : ∀ r ∈ before ++ [last], r.ts < 2 ^ s.cfg.cntBits) (service : Issues v .service)
    (inTime : ¬TimedOut s.cfg (v.inputs.nowMs % 2 ^ s.cfg.tickBits) s.startMs)
    (silent : Silent s.cfg (v.inputs.nowCnt % 2 ^ s.cfg.cntBits) last.ts) :
    ∃ t, run ((before ++ [last]).map edgeRequest ++ v :: rest) s = run rest t ∧
      SessionReady s (before ++ [last]) t := by
  obtain ⟨legal, noService, capture, noRead⟩ := edgeRequests_facts before
  have count0 : s.count.toNat = 0 := by rw [empty]; rfl
  have room' : s.count.toNat + (portArrivals .capture (before.map edgeRequest)).length < s.cfg.capacity := by
    rwa [count0, capture, List.length_map, Nat.zero_add]
  obtain ⟨t, ran, recorded⟩ :=
    run_recorded (before.map edgeRequest) (edgeRequest last :: v :: rest) inv wf running capturing legal noService room'
  have record : recordOf s.cfg (edgeRequest last) = last := recordOf_edgeRequest (width last (by simp))
  have capturing' : t.state = .capturing := recorded.state.trans capturing
  have closed := run_edge_then_service rest recorded.inv (recorded.cfg ▸ wf) (recorded.fault.trans running) capturing'
    (issues_edgeRequest last) service (by rwa [recorded.cfg, recorded.startMs]) (by rwa [recorded.cfg, record])
  rw [recorded.cfg, record] at closed
  have grows := count_succ ((Config.wf_iff t.cfg).1 (recorded.cfg ▸ wf)).1.2 (recorded.inv.capturing_room capturing')
  have held := recorded.records [] (by rw [count0]; rfl)
  rw [deliveredRecords, capture, map_recordOf_edgeRequest fun r hr => width r (List.mem_append_left _ hr),
    List.nil_append] at held
  rw [List.map_append, List.append_assoc]
  refine ⟨_, ran.trans closed, rfl, rfl, recorded.cfg, recorded.fault.trans running, ?_, ?_, ?_⟩
  · refine recorded.results.trans ?_
    rw [noRead]
    exact List.append_nil _
  · exact congrArg (· ++ [.captureDisarm]) recorded.events
  · rw [← bufReadAll_appended (r := last) grows held]
    exact bufReadAll_congr (by rfl) (by rfl) _

/-- A READ that ends a run in Ready answers the decoded records. -/
theorem run_read {s : State} {d : Request} {rs : List EdgeRecord} (wf : s.cfg.wf = true) (running : s.fault = none)
    (ready : s.state = .ready) (read : Issues d .read) (held : bufReadAll s.count.toNat s = .ok rs) :
    run [d] s = .next (respond (decodeFrame s.cfg rs).word (consumeSession (accept d [] s))) := by
  have held' : bufReadAll (accept d [] s).count.toNat (accept d [] s) = .ok rs := by
    rw [← held]
    exact bufReadAll_congr (by rfl) (by rfl) _
  exact run_cons wf running read (exec_read_of_ready ready held')

/-- INIT before anything else sets up and leaves the block as it was. -/
theorem run_init {s : State} (rest : List Request) (inv : Inv s) (wf : s.cfg.wf = true) (running : s.fault = none)
    (beforeInit : s.initDone = false) :
    ∃ t, run (Request.make .init 0 0 0 :: rest) s = run rest t ∧ Inv t ∧ t.cfg = s.cfg ∧ t.fault = none ∧
      t.state = s.state ∧ t.initDone = true ∧ t.results = s.results ∧ t.events = s.events ++ [.delayInit] := by
  have executed := exec_init_of_not_initDone (s := accept (Request.make .init 0 0 0) rest s) beforeInit
  exact ⟨_, run_cons wf running (issues_make .init 0 0 0) executed, exec_keeps_inv (inv.accept _ _) wf executed, rfl,
    running, rfl, rfl, rfl, rfl⟩

/-- START from Idle opens a session without a record. -/
theorem run_start {s : State} (ms : Nat) (rest : List Request) (inv : Inv s) (wf : s.cfg.wf = true)
    (running : s.fault = none) (initDone : s.initDone = true) (idle : s.state = .idle) :
    ∃ t, run (Request.make .start ms 0 0 :: rest) s = run rest t ∧ Inv t ∧ t.cfg = s.cfg ∧ t.fault = none ∧
      t.state = .capturing ∧ t.count = 0#8 ∧ t.startMs = ms % 2 ^ s.cfg.tickBits ∧ t.results = s.results ∧
      t.events = s.events ++ wakeEvents s.cfg := by
  have executed := exec_start_of_idle (s := accept (Request.make .start ms 0 0) rest s) initDone idle
  exact ⟨_, run_cons wf running (issues_make .start ms 0 0) executed, exec_keeps_inv (inv.accept _ _) wf executed, rfl,
    running, rfl, rfl, rfl, rfl, rfl⟩

/-- INIT and START from reset open a session. -/
theorem run_init_start (c : Config) (wf : c.wf = true) (ms : Nat) (rest : List Request) :
    ∃ s, run (Request.make .init 0 0 0 :: Request.make .start ms 0 0 :: rest) (State.resetWith c) = run rest s ∧
      Inv s ∧ s.cfg = c ∧ s.fault = none ∧ s.state = .capturing ∧ s.count = 0#8 ∧ s.startMs = ms % 2 ^ c.tickBits ∧
      s.results = [] ∧ s.events = [.delayInit] ++ wakeEvents c := by
  obtain ⟨s, setUp, inv, cfg, running, idle, initDone, noResults, delayed⟩ :=
    run_init (Request.make .start ms 0 0 :: rest) (inv_resetWith c) wf rfl rfl
  have cfg : s.cfg = c := cfg
  subst cfg
  obtain ⟨t, opened, inv', cfg', running', capturing, empty, startMs, noResults', woken⟩ :=
    run_start ms rest inv wf running initDone idle
  exact ⟨t, setUp.trans opened, inv', cfg', running', capturing, empty, startMs, noResults'.trans noResults,
    woken.trans (congrArg (· ++ wakeEvents s.cfg) delayed)⟩

end Sys2Proof.Machine

namespace Sys2Proof.Proofs

open Sys2Proof.Machine Sys2Proof.Claims

/-- Settles O60: the duty holds one SERVICE among the arrivals, which `run_leaves_capturing` follows until it is taken or
the session has ended before. -/
theorem pollingEndsTheSession : Obligations.PollingEndsTheSession := by
  intro s l n k inv wf running capturing legal noStart duty late
  obtain ⟨t, ran, inv', unfaulted, left⟩ :=
    run_leaves_capturing l inv wf running legal noStart late fun _ => duty.exists_service capturing
  exact ⟨t, ran, unfaulted, left, inv'.disarmed_of_not_capturing left⟩

/-- Settles O55: INIT and START open the session, the 82 edges are recorded and SERVICE closes it, and READ decodes the
frame's own records. -/
theorem wholeTransactionReportsTheFrame : Obligations.WholeTransactionReportsTheFrame := by
  intro c t0 ms0 ms1 cnt f last wf capacity low high period ht0 hlast inTime silent
  obtain ⟨before, frame⟩ := List.getLast?_eq_some_iff.1 hlast
  have width : ∀ r ∈ frameRecords c t0 f, r.ts < 2 ^ c.cntBits := pulseTrain_ts_lt c ht0 (frameWidths f)
  have length := length_frameRecords t0 f c
  have decoded := decodeFrame_frameRecords t0 f wf low high period
  rw [frame] at width length decoded ⊢
  have room : before.length < c.capacity := by simp at length; omega
  obtain ⟨s, opened, inv, rfl, running, capturing, empty, startMs, noResults, events⟩ := run_init_start c wf ms0
    ((before ++ [last]).map edgeRequest ++ [Request.make .service ms1 cnt 0, Request.make .read 0 0 0])
  obtain ⟨t, recorded, ready⟩ := run_edges_then_service [Request.make .read 0 0 0] inv wf running capturing empty room width
    (issues_make .service ms1 cnt 0) (startMs ▸ inTime) silent
  have reported := run_read (ready.cfg ▸ wf) ready.fault ready.state (issues_make .read 0 0 0) ready.records
  rw [ready.cfg, decoded] at reported
  refine ⟨_, opened.trans (recorded.trans reported), ?results, rfl, ready.armed, ?count, ready.fault, ?events⟩
  case results =>
    exact congrArg (· ++ [(frameResult f).word]) (ready.results.trans noResults)
  case count =>
    exact BitVec.eq_of_toNat_eq (((bufReadAll_eq_ok_iff _ _ _).1 ready.records).1.symm.trans length)
  case events =>
    refine ready.events.trans ?_
    rw [events]

end Sys2Proof.Proofs
end

section
/-! PROOF. What reset leaves unspecified is never read: two runs that differ there go alike (10_state.md R25, R27, R39). -/

namespace Sys2Proof.Machine

open Sys2Proof.Claims
open Host (Outcome)

/-- The state with other values in the two fields reset leaves unspecified. -/
def withUnread (last : CounterValue) (start : TickValue) (s : State) : State := { s with lastTs := last, startMs := start }

/-- A READ in Ready stops at a record that cannot be read. -/
theorem exec_read_of_unreadable {s : State} {f : Fault} (ready : s.state = .ready)
    (unreadable : bufReadAll s.count.toNat s = .error f) : exec .read s = .fault f := by
  simp [exec, execRead, readReady, ready, unreadable]

theorem step_of_no_arrivals {s : State} (wf : s.cfg.wf = true) (running : s.fault = none) (none_left : s.arrivals = []) :
    step s = .refused .noOperation := by
  unfold step
  rw [if_pos wf, running, none_left]

theorem SameRun.refl (o : Outcome State Fault Refusal) : SameRun o o := by
  cases o with
  | next s => exact ⟨rfl, fun _ => rfl, fun _ => rfl⟩
  | fault f => rfl
  | refused r => rfl

/-- Two states that go alike are one state with two values of the unread fields. -/
theorem sameRun_next_iff {s t : State} : SameRun (.next s) (.next t) ↔
    ∃ last start, t = withUnread last start s ∧ (1 ≤ s.count.toNat → last = s.lastTs) ∧
      (s.state = .capturing → start = s.startMs) := by
  constructor
  · rintro ⟨same, last, start⟩
    exact ⟨t.lastTs, t.startMs, same, last, start⟩
  · rintro ⟨last, start, rfl, hlast, hstart⟩
    exact ⟨rfl, hlast, hstart⟩

section
variable {s : State} {last : CounterValue} {start : TickValue}

/-- Two outcomes that differ in the unread fields only. -/
theorem sameRun_of_next {o p : Outcome State Fault Refusal} {t : State} {last' : CounterValue} {start' : TickValue}
    (first : o = .next t) (second : p = .next (withUnread last' start' t)) (hlast : 1 ≤ t.count.toNat → last' = t.lastTs)
    (hstart : t.state = .capturing → start' = t.startMs) : SameRun o p := by
  rw [first, second]
  exact sameRun_next_iff.2 ⟨last', start', rfl, hlast, hstart⟩

section
variable (hlast : 1 ≤ s.count.toNat → last = s.lastTs) (hstart : s.state = .capturing → start = s.startMs)
include hlast hstart

theorem sameRun_init : SameRun (exec .init s) (exec .init (withUnread last start s)) := by
  cases initDone : s.initDone with
  | true =>
    exact sameRun_of_next (exec_init_of_initDone initDone) (exec_init_of_initDone (s := withUnread last start s) initDone)
      hlast hstart
  | false =>
    exact sameRun_of_next (last' := last) (start' := start) (exec_init_of_not_initDone initDone)
      (exec_init_of_not_initDone (s := withUnread last start s) initDone) hlast hstart

/-- START writes `start_ms` where it opens a session, which has no record yet. -/
theorem sameRun_start : SameRun (exec .start s) (exec .start (withUnread last start s)) := by
  cases initDone : s.initDone with
  | false =>
    exact sameRun_of_next (last' := last) (start' := start) (exec_start_of_not_initDone initDone)
      (exec_start_of_not_initDone (s := withUnread last start s) initDone) hlast hstart
  | true =>
    by_cases idle : s.state = .idle
    · exact sameRun_of_next (last' := last) (start' := nowMs s) (exec_start_of_idle initDone idle)
        (exec_start_of_idle (s := withUnread last start s) initDone idle) (by simp) fun _ => rfl
    · exact sameRun_of_next (exec_start_of_not_idle initDone idle)
        (exec_start_of_not_idle (s := withUnread last start s) initDone idle) hlast hstart

/-- SERVICE reads `start_ms` in Capturing only, and `last_ts` only with a record held. -/
theorem sameRun_service : SameRun (exec .service s) (exec .service (withUnread last start s)) := by
  by_cases capturing : s.state = .capturing
  case neg =>
    exact sameRun_of_next (exec_service_of_not_capturing capturing)
      (exec_service_of_not_capturing (s := withUnread last start s) capturing) hlast hstart
  case pos =>
    obtain rfl := hstart capturing
    by_cases held : 1 ≤ s.count.toNat
    case pos =>
      obtain rfl := hlast held
      exact SameRun.refl _
    case neg =>
      by_cases late : TimedOut s.cfg (nowMs s) s.startMs
      · exact sameRun_of_next (last' := last) (start' := s.startMs) (exec_service_of_timedOut capturing late)
          (exec_service_of_timedOut (s := withUnread last s.startMs s) capturing late) hlast fun _ => rfl
      · exact sameRun_of_next (exec_service_of_waiting late fun ⟨one, _⟩ => held one)
          (exec_service_of_waiting (s := withUnread last s.startMs s) late fun ⟨one, _⟩ => held one) hlast fun _ => rfl

/-- READ reads the buffer and the count. -/
theorem sameRun_read : SameRun (exec .read s) (exec .read (withUnread last start s)) := by
  cases state : s.state with
  | idle =>
    exact sameRun_of_next (last' := last) (start' := start) (exec_read_of_idle state)
      (exec_read_of_idle (s := withUnread last start s) state) hlast hstart
  | capturing =>
    exact sameRun_of_next (last' := last) (start' := start) (exec_read_of_capturing state)
      (exec_read_of_capturing (s := withUnread last start s) state) hlast hstart
  | ready =>
    have records : bufReadAll s.count.toNat (withUnread last start s) = bufReadAll s.count.toNat s :=
      bufReadAll_congr (by rfl) (by rfl) _
    cases held : bufReadAll s.count.toNat s with
    | error f =>
      rw [exec_read_of_unreadable state held,
        exec_read_of_unreadable (s := withUnread last start s) state (records.trans held)]
      exact SameRun.refl _
    | ok rs =>
      exact sameRun_of_next (last' := last) (start' := start) (exec_read_of_ready state held)
        (exec_read_of_ready (s := withUnread last start s) state (records.trans held)) hlast (by simp)

/-- EDGE reads neither of the two, and writes `last_ts` with its record. -/
theorem sameRun_edge (level : Bool) : SameRun (exec (.edge level) s) (exec (.edge level) (withUnread last start s)) := by
  cases armed : s.armed with
  | false =>
    exact sameRun_of_next (exec_edge_of_disarmed armed) (exec_edge_of_disarmed (s := withUnread last start s) armed) hlast
      hstart
  | true =>
    rcases Nat.lt_trichotomy (s.count.toNat + 1) s.cfg.capacity with room | fills | full
    · exact sameRun_of_next (last' := edgeTs s) (start' := start) (exec_edge_of_room armed room)
        (exec_edge_of_room (s := withUnread last start s) armed room) (fun _ => rfl) hstart
    · exact sameRun_of_next (last' := edgeTs s) (start' := start) (exec_edge_of_last_slot armed fills)
        (exec_edge_of_last_slot (s := withUnread last start s) armed fills) (fun _ => rfl) (by simp)
    · have full : s.cfg.capacity ≤ s.count.toNat := Nat.le_of_lt_succ full
      exact sameRun_of_next (exec_edge_of_full full) (exec_edge_of_full (s := withUnread last start s) full) hlast hstart

theorem exec_sameRun (i : Instr) : SameRun (exec i s) (exec i (withUnread last start s)) := by
  cases i with
  | init => exact sameRun_init hlast hstart
  | start => exact sameRun_start hlast hstart
  | service => exact sameRun_service hlast hstart
  | read => exact sameRun_read hlast hstart
  | edge level => exact sameRun_edge hlast hstart level

theorem step_sameRun : SameRun (step s) (step (withUnread last start s)) := by
  by_cases wf : s.cfg.wf = true
  case neg =>
    rw [step_of_not_wf wf, step_of_not_wf (s := withUnread last start s) wf]
    exact SameRun.refl _
  case pos =>
    cases running : s.fault with
    | some m =>
      rw [step_of_fault wf running, step_of_fault (s := withUnread last start s) wf running]
      exact SameRun.refl _
    | none =>
      cases taken : s.arrivals with
      | nil =>
        rw [step_of_no_arrivals wf running taken, step_of_no_arrivals (s := withUnread last start s) wf running taken]
        exact SameRun.refl _
      | cons r rest =>
        cases decoded : decode r.port r.word with
        | error e =>
          exact sameRun_of_next (last' := last) (start' := start) (step_of_decode_error wf running taken decoded)
            (step_of_decode_error (s := withUnread last start s) wf running taken decoded) hlast hstart
        | ok i =>
          rw [step_of_decode wf running taken decoded,
            step_of_decode (s := withUnread last start s) wf running taken decoded]
          exact exec_sameRun (s := accept r rest s) hlast hstart i

end

end

theorem coreRun_succ (k : Nat) (s : State) :
    Sys2Proof.core.run (k + 1) s =
      match step s with
      | .next t => Sys2Proof.core.run k t
      | .fault f => .fault f
      | .refused r => .refused r := by
  cases stepped : step s with
  | _ =>
    simp only [Host.Core.run]
    rw [show Sys2Proof.core.step s = _ from stepped]

/-- Runs of the same length from states that go alike go alike. -/
theorem coreRun_sameRun (k : Nat) {s t : State} (same : SameRun (.next s) (.next t)) :
    SameRun (Sys2Proof.core.run k s) (Sys2Proof.core.run k t) := by
  induction k generalizing s t with
  | zero => exact same
  | succ k ih =>
    obtain ⟨last, start, rfl, hlast, hstart⟩ := sameRun_next_iff.1 same
    have stepped := step_sameRun hlast hstart
    rw [coreRun_succ, coreRun_succ]
    generalize step s = o, step (withUnread last start s) = p at stepped
    cases o with
    | next s' =>
      cases p with
      | next t' => exact ih stepped
      | _ => exact stepped.elim
    | fault f =>
      cases p with
      | fault g => exact stepped
      | _ => exact stepped.elim
    | refused f =>
      cases p with
      | refused g => exact stepped
      | _ => exact stepped.elim

end Sys2Proof.Machine

namespace Sys2Proof.Proofs

open Sys2Proof.Machine Sys2Proof.Claims

/-- Settles O1: the fields are those of `State.resetWith`, and no step reads the two unspecified ones
(`step_sameRun`), since reset holds no record and is not Capturing. -/
theorem resetHoldsTheSpecValues : Obligations.ResetHoldsTheSpecValues := by
  rintro c s rfl
  refine ⟨rfl, fun i => ?noValue, rfl, rfl, rfl, rfl, rfl, rfl, rfl, ?status, rfl, rfl, fun last start l => ?alike⟩
  case noValue => exact if_neg (Nat.not_lt_zero i)
  case status =>
    have sameView : statusWord (State.resetWith c) = statusWord State.reset := rfl
    rw [sameView]
    decide
  case alike =>
    have start_alike : SameRun (.next { State.resetWith c with arrivals := l })
        (.next (withUnread last start { State.resetWith c with arrivals := l })) :=
      sameRun_of_next rfl rfl (by simp) (by simp)
    exact coreRun_sameRun l.length start_alike

end Sys2Proof.Proofs
end
